-- ==== Sys2Proof/Word.lean ====
section
/-! DEFINITION. The values the engine is made of (rules R11, R24, R52, R71, R72): bytes, command words, blocks, buffer
memories and payloads. Each is plain data; a block and a payload carry the proof of their length, so a value of a
wrong length cannot be written. -/

namespace Sys2Proof

/-- A byte: an unsigned 8-bit value, bit 7 the most significant (R11). -/
abbrev Byte := BitVec 8

/-- A 32-bit command or response word (R71, R75). -/
abbrev Word := BitVec 32

/-- A block: a byte sequence of length exactly 32, index 0 first (R8, R11). KEY, IV, KEYROUND and every block of PT
and CT are blocks. -/
abbrev Block := { b : List Byte // b.length = 32 }

/-- `rep(0, 32)` of R180: the value KEY, IV and KEYROUND have after reset and after INIT (R33). -/
def Block.zero : Block := ⟨List.replicate 32 0, List.length_replicate⟩

/-- The content of a buffer memory, PT or CT: the bytes at indices 0 to length - 1 and no other. R24: "A model should
hold PT as a byte sequence of length PT_LEN and need not hold a capacity-sized array." The length register PT_LEN or
CT_LEN is the length of the sequence. -/
abbrev Memory := List Byte

/-- The payload of a command: LEN (the 24-bit field of the command word) and exactly LEN bytes, index 0 first (R72).
"At transaction level a command whose payload is shorter or longer than LEN cannot be expressed." -/
structure Payload where
  len : BitVec 24
  bytes : List Byte
  bytes_length : bytes.length = len.toNat
  deriving DecidableEq, Repr

/-- The empty payload, LEN = 0: the only one a format N command may have (R73, R79). -/
def Payload.empty : Payload := ⟨0, [], rfl⟩

end Sys2Proof
end

