-- ==== Sys2Proof/Config.lean ====
section
/-! DEFINITION. What one implementation of the engine fixes (R8, R9). The fixed parameters of R8 (32-byte block, 4 rows,
8 columns, 32-byte key and iv, 32-byte least buffer) are literals of the definitions that use them. -/

namespace Sys2Proof

/-- The open parameter of R9, "which the model takes as an argument": `bufCap` is BUF_CAP, the capacity in bytes of each
of the two buffer memories. It is held in State beside the context so that every statement holds for every value of it.
No step changes it. -/
structure Config where
  bufCap : Nat
  deriving DecidableEq, Repr

/-- R9: "BUF_CAP is a multiple of 32, 32 <= BUF_CAP <= 2^24 - 32 (= 16777184)." -/
def Config.wf (c : Config) : Bool := c.bufCap % 32 == 0 && 32 ≤ c.bufCap && c.bufCap ≤ 16777184

/-- The BUF_CAP of the spec's own programs (95_test_vectors.md Part 3: "with BUF_CAP = 96 unless it says otherwise").
DESIGN CHOICE (log entry 1): the value `State.reset` carries; unsafe for a claim that starts from `State.reset`. -/
def Config.ofVectors : Config := ⟨96⟩

end Sys2Proof
end

