-- ==== Sys2Proof/Syntax.lean ====
section
/-! DEFINITION. The commands of the engine (R73): one constructor per row of spec/opcode_table.json. A format N command
takes no operand; a format P command takes its payload, which holds LEN, the one field of its row. -/

namespace Sys2Proof

/-- The eleven commands (R73). There are no register fields, no modes and no immediates but LEN (R71). -/
inductive Instr where
  /-- 0x01 INIT, format N (R180). -/
  | init
  /-- 0x02 SET_KEY, format P (R181). -/
  | setKey (pl : Payload)
  /-- 0x03 SET_IV, format P (R182). -/
  | setIv (pl : Payload)
  /-- 0x04 SET_PT, format P (R183). -/
  | setPt (pl : Payload)
  /-- 0x05 SET_CT, format P (R184). -/
  | setCt (pl : Payload)
  /-- 0x06 ENCRYPT, format N (R161). -/
  | encrypt
  /-- 0x07 DECRYPT, format N (R163). -/
  | decrypt
  /-- 0x08 PAD, format P (R106). -/
  | pad (pl : Payload)
  /-- 0x09 GET_PT, format N (R190). -/
  | getPt
  /-- 0x0A GET_CT, format N (R191). -/
  | getCt
  /-- 0x0B STAT, format N (R192). -/
  | stat
  deriving DecidableEq, Repr

end Sys2Proof
end

