-- ==== Sys2Proof/WellFormed.lean ====
section
/-! DEFINITION. The checks a raw byte sequence passes to be a payload (R71, R72). A `Payload` carries the result of the
check, so an `Instr` cannot be ill formed; the checks here are the gate through which raw data becomes a payload. -/

namespace Sys2Proof

/-- Check 1 (R71): LEN is a 24-bit field, so a payload has at most 2^24 - 1 bytes. -/
abbrev fitsLen (bytes : List Byte) : Prop := bytes.length < 16777216

/-- Check 2 (R72): "The payload is a byte sequence `pl` of exactly LEN bytes." -/
abbrev matchesLen (len : BitVec 24) (bytes : List Byte) : Prop := bytes.length = len.toNat

/-- The payload of the given bytes, LEN being their number; none where LEN cannot hold it. -/
def Payload.ofBytes? (bytes : List Byte) : Option Payload :=
  if h : fitsLen bytes then
    some ⟨BitVec.ofNat 24 bytes.length, bytes, by simp only [BitVec.toNat_ofNat]; omega⟩
  else none

/-- The payload of a given LEN and bytes; none where their number is not LEN. -/
def Payload.ofParts? (len : BitVec 24) (bytes : List Byte) : Option Payload :=
  if h : matchesLen len bytes then some ⟨len, bytes, h⟩ else none

/-- The payload an instruction carries; the empty one for format N (R73). -/
def Instr.payload : Instr → Payload
  | .init => Payload.empty
  | .setKey pl => pl
  | .setIv pl => pl
  | .setPt pl => pl
  | .setCt pl => pl
  | .encrypt => Payload.empty
  | .decrypt => Payload.empty
  | .pad pl => pl
  | .getPt => Payload.empty
  | .getCt => Payload.empty
  | .stat => Payload.empty

/-- An instruction is well formed when its payload passes both checks. `Payload` carries the second, and the first
follows from it (`Instr.wellFormed_all`), so every instruction is. -/
abbrev Instr.WellFormed (i : Instr) : Prop :=
  fitsLen i.payload.bytes ∧ matchesLen i.payload.len i.payload.bytes

/-- No ill-formed instruction can be written: its payload carries the proof. -/
theorem Instr.wellFormed_all (i : Instr) : i.WellFormed :=
  ⟨by have := i.payload.bytes_length; have := i.payload.len.isLt; simp only [fitsLen]; omega, i.payload.bytes_length⟩

end Sys2Proof
end

