-- ==== Sys2Proof/Decode.lean ====
section
/-! DEFINITION. Commands as the host gives them, their decoding (total, rejecting by name: R78, R79, R82), the encoder
(R71, R73), the serialisation as bytes (R53) and the decoding of a word of the opcode table. -/

namespace Sys2Proof

/-- `OPC = CMD[7:0]` (R71). -/
def opcField (cmd : Word) : Byte := cmd.extractLsb' 0 8

/-- `LEN = CMD[31:8]` (R71). -/
def lenField (cmd : Word) : BitVec 24 := cmd.extractLsb' 8 24

/-- What the host gives in one transaction: the command word and exactly LEN payload bytes (R70, R72). -/
structure Command where
  word : Word
  payload : List Byte
  payload_length : payload.length = (lenField word).toNat
  deriving DecidableEq, Repr

/-- The payload of a command, LEN taken from its word. -/
def Command.toPayload (c : Command) : Payload := ⟨lenField c.word, c.payload, c.payload_length⟩

/-- Why a command word is illegal (R80: "every command word is one of the eleven commands or is illegal under rule R78
or rule R79"). -/
inductive Illegal where
  /-- R78: OPC is 0x00 or 0x0C to 0xFF, whatever LEN is. -/
  | reservedOpcode (opc : Byte)
  /-- R79: a format N opcode with LEN != 0. -/
  | payloadOnFormatN (opc : Byte) (len : BitVec 24)
  deriving DecidableEq, Repr

/-- The result of decoding: one of the eleven commands, or illegal, by name. -/
inductive Decoded where
  | legal (i : Instr)
  | illegal (why : Illegal)
  deriving DecidableEq, Repr

/-- A format N command: legal only with LEN = 0 (R79). -/
def formatN (cmd : Word) (i : Instr) : Decoded :=
  if lenField cmd = 0 then .legal i else .illegal (.payloadOnFormatN (opcField cmd) (lenField cmd))

/-- R82: "Decoding is total." OPC picks the command (R73); LEN says how many payload bytes follow. -/
def decode (c : Command) : Decoded :=
  match (opcField c.word).toNat with
  | 0x01 => formatN c.word .init
  | 0x02 => .legal (.setKey c.toPayload)
  | 0x03 => .legal (.setIv c.toPayload)
  | 0x04 => .legal (.setPt c.toPayload)
  | 0x05 => .legal (.setCt c.toPayload)
  | 0x06 => formatN c.word .encrypt
  | 0x07 => formatN c.word .decrypt
  | 0x08 => .legal (.pad c.toPayload)
  | 0x09 => formatN c.word .getPt
  | 0x0A => formatN c.word .getCt
  | 0x0B => formatN c.word .stat
  | _ => .illegal (.reservedOpcode (opcField c.word))

/-- The opcode of each command (R73). -/
def Instr.opc : Instr → Byte
  | .init => 0x01
  | .setKey _ => 0x02
  | .setIv _ => 0x03
  | .setPt _ => 0x04
  | .setCt _ => 0x05
  | .encrypt => 0x06
  | .decrypt => 0x07
  | .pad _ => 0x08
  | .getPt => 0x09
  | .getCt => 0x0A
  | .stat => 0x0B

/-- `CMD = LEN * 256 + OPC` (R71). -/
def commandWord (len : BitVec 24) (opc : Byte) : Word := BitVec.ofNat 32 (len.toNat * 256 + opc.toNat)

/-- The LEN field of `LEN * 256 + OPC` is LEN. -/
theorem lenField_commandWord (len : BitVec 24) (opc : Byte) : lenField (commandWord len opc) = len := by
  apply BitVec.eq_of_toNat_eq
  simp only [lenField, commandWord, BitVec.extractLsb'_toNat, BitVec.toNat_ofNat, Nat.shiftRight_eq_div_pow]
  omega

/-- The OPC field of `LEN * 256 + OPC` is OPC. -/
theorem opcField_commandWord (len : BitVec 24) (opc : Byte) : opcField (commandWord len opc) = opc := by
  apply BitVec.eq_of_toNat_eq
  simp only [opcField, commandWord, BitVec.extractLsb'_toNat, BitVec.toNat_ofNat, Nat.shiftRight_eq_div_pow]
  omega

/-- The command word of an instruction. -/
def Instr.word (i : Instr) : Word := commandWord i.payload.len i.opc

/-- The encoder: the transaction by which the host issues an instruction, its word and its payload (R71 to R73). -/
def encode (i : Instr) : Command :=
  ⟨i.word, i.payload.bytes, by rw [Instr.word, lenField_commandWord]; exact i.payload.bytes_length⟩

/-- A row of spec/opcode_table.json: `CMD & mask == match` (R74). -/
structure TableRow where
  mask : Word
  value : Word
  deriving DecidableEq, Repr

/-- The table's row of each instruction (R74): format N fixes the whole word, format P only the opcode byte. -/
def Instr.row : Instr → TableRow
  | .init => ⟨0xFFFFFFFF, 0x00000001⟩
  | .setKey _ => ⟨0x000000FF, 0x00000002⟩
  | .setIv _ => ⟨0x000000FF, 0x00000003⟩
  | .setPt _ => ⟨0x000000FF, 0x00000004⟩
  | .setCt _ => ⟨0x000000FF, 0x00000005⟩
  | .encrypt => ⟨0xFFFFFFFF, 0x00000006⟩
  | .decrypt => ⟨0xFFFFFFFF, 0x00000007⟩
  | .pad _ => ⟨0x000000FF, 0x00000008⟩
  | .getPt => ⟨0xFFFFFFFF, 0x00000009⟩
  | .getCt => ⟨0xFFFFFFFF, 0x0000000A⟩
  | .stat => ⟨0xFFFFFFFF, 0x0000000B⟩

/-- Whether a command word matches a row of the table. -/
def TableRow.matchesWord (r : TableRow) (cmd : Word) : Bool := cmd &&& r.mask == r.value

/-- R53: "Where a platform serialises a 32-bit command or response word into bytes, the least significant byte goes
first (little-endian)". -/
def wordBytes (w : Word) : List Byte :=
  [w.extractLsb' 0 8, w.extractLsb' 8 8, w.extractLsb' 16 8, w.extractLsb' 24 8]

/-- The word of four bytes, the least significant first (R53). -/
def wordOfBytes (b0 b1 b2 b3 : Byte) : Word :=
  BitVec.ofNat 32 (b0.toNat + 256 * b1.toNat + 65536 * b2.toNat + 16777216 * b3.toNat)

/-- A command as a byte stream: its word, then its payload (R53, R72; R81: "the length of the whole command is 4 + LEN
bytes"). -/
def Command.serialise (c : Command) : List Byte := wordBytes c.word ++ c.payload

/-- The result of reading one command from a byte stream. -/
inductive Parsed where
  /-- a whole command, and the bytes after it -/
  | command (c : Command) (rest : List Byte)
  /-- fewer than four bytes: not yet a command word -/
  | shortWord
  /-- a command word and fewer than LEN payload bytes -/
  | shortPayload (cmd : Word)
  deriving DecidableEq, Repr

/-- Read one command from a byte stream. A stream that ends inside a command is rejected by name: such a transaction
"cannot be expressed" (R72), so no step is made of it. -/
def parse : List Byte → Parsed
  | b0 :: b1 :: b2 :: b3 :: rest =>
    let cmd := wordOfBytes b0 b1 b2 b3
    if h : (lenField cmd).toNat ≤ rest.length then
      .command ⟨cmd, rest.take (lenField cmd).toNat, by simp [h]⟩ (rest.drop (lenField cmd).toNat)
    else .shortPayload cmd
  | _ => .shortWord

/-- `n` bytes of the number `v`, the least significant first. -/
def bytesOfNat : Nat → Nat → List Byte
  | 0, _ => []
  | n + 1, v => BitVec.ofNat 8 v :: bytesOfNat n (v / 256)

theorem length_bytesOfNat (n v : Nat) : (bytesOfNat n v).length = n := by
  induction n generalizing v with
  | zero => rfl
  | succ n ih => simp [bytesOfNat, ih]

/-- The transaction whose bits are `w`, numbered as spec/opcode_table.json numbers them: the command word in bits 31:0 and
payload byte k in bits 39 + 8k : 32 + 8k; every bit at or above `nbits` is 0. -/
def tableCommand (nbits w : Nat) : Command :=
  ⟨BitVec.ofNat 32 (w % 2 ^ nbits),
    bytesOfNat (lenField (BitVec.ofNat 32 (w % 2 ^ nbits))).toNat (w % 2 ^ nbits / 4294967296),
    length_bytesOfNat _ _⟩

/-- The instruction this decoder reads from a word of the opcode table; none where it is illegal. -/
def decodeTableWord (nbits w : Nat) : Option Instr :=
  match decode (tableCommand nbits w) with
  | .legal i => some i
  | .illegal _ => none

end Sys2Proof
end

