-- ==== Sys2Proof/Machine/State.lean ====
section
/-! DEFINITION. The state of the engine (10_state.md) and of its command port, as plain data; the outcomes that stop a
step; and the state after reset. -/

namespace Sys2Proof.Machine

/-- The six errors of R210. An error is an ordinary response (R225), never a stop of the model. -/
inductive Error where
  | invalidLength
  | tooShort
  | missingInput
  | corruptPadding
  | outOfMemory
  | illegalCommand
  deriving DecidableEq, Repr

/-- The status of a response: seven values (R77; 93_implementation_defined.md U8). -/
inductive Status where
  | ok
  | error (e : Error)
  deriving DecidableEq, Repr

/-- A response: STATUS and COUNT of the response word, and the bytes of the data phase (R70, R75, R76). -/
structure Response where
  status : Status
  count : Nat
  data : List Byte
  deriving DecidableEq, Repr

/-- The context: "The engine holds exactly one context" (R20). PT_LEN and CT_LEN are the lengths of `pt` and `ct` (R24),
FLAGS is computed from the four flags (R28), and MATRIX is scratch, not state (R30). -/
structure Context where
  /-- KEY, 32 bytes (R21) -/
  key : Block
  /-- KEY_SET (R21, R27) -/
  keySet : Bool
  /-- IV, 32 bytes (R22) -/
  iv : Block
  /-- IV_SET (R22, R27) -/
  ivSet : Bool
  /-- KEYROUND, 32 bytes (R23) -/
  keyround : Block
  /-- PT, the plaintext buffer, PT_LEN bytes (R24) -/
  pt : Memory
  /-- PT_SET (R24, R27) -/
  ptSet : Bool
  /-- CT, the ciphertext buffer, CT_LEN bytes (R25) -/
  ct : Memory
  /-- CT_SET (R25, R27) -/
  ctSet : Bool
  deriving DecidableEq, Repr

/-- What the host may do at a command boundary (R248): issue a command, or assert reset. -/
inductive HostMove where
  /-- issue a command (R70) -/
  | command (c : Command)
  /-- assert reset between commands; power-up counts as reset (R240) -/
  | reset
  /-- assert reset while command `c` is in progress (R242) -/
  | resetDuring (c : Command)
  deriving DecidableEq, Repr

/-- Faults of the model: none. R225: "A step of the engine is total: every (state, command word, payload) gives a next
state and a response. The six error statuses are ordinary responses, not model faults". R217: "The engine never stops,
locks up or needs a reset or an INIT after an error". -/
inductive Fault where
  deriving DecidableEq, Repr

/-- Refusals of the model. The one boundary refusal of R225 (a command issued while another is in progress) is a move
`HostMove` does not have (R247: "in a model the host has no move while a command is in progress"). -/
inductive Refusal where
  /-- An instruction whose arm of `exec` has no meaning yet. No arm raises it: all eleven commands have their meaning.
  Safe. -/
  | notModelled (mnemonic : String)
  deriving DecidableEq, Repr

/-- The state of the model: the configuration of this engine, the context, and the two ends of the command port. -/
structure State where
  /-- BUF_CAP (R9), fixed for the machine -/
  cfg : Config
  /-- the context (R20), all the state of the engine -/
  ctx : Context
  /-- MODEL'S OWN: what the host will do, the next move first (R58: the responses are those of executing the commands
  one after another, in issue order) -/
  inbox : List HostMove
  /-- MODEL'S OWN: the responses given so far, the oldest first (R249: what a claim about a run may speak of) -/
  outbox : List Response
  deriving DecidableEq, Repr

/-- The empty context: every field at the value of R33, which is what INIT leaves (R180). -/
def Context.empty : Context where
  key := Block.zero
  keySet := false
  iv := Block.zero
  ivSet := false
  keyround := Block.zero
  pt := []
  ptSet := false
  ct := []
  ctSet := false

/-- An engine of any configuration right after reset: the context empty (R33, R240), no host move pending and no response
given. R241: "After reset the engine waits for a command. It does nothing by itself". -/
def State.resetWith (cfg : Config) : State where
  cfg := cfg
  ctx := Context.empty
  inbox := []
  outbox := []

/-- The engine of the spec's own programs (BUF_CAP = 96, log entry 1) right after reset. -/
def State.reset : State := State.resetWith Config.ofVectors

end Sys2Proof.Machine
end

