-- ==== Sys2Proof/Machine/Ops.lean ====
section
/-! DEFINITION. The shared operations: reading a buffer memory, replacing a field of the context, ending a command with
success or with an error (60_exceptions.md), the response word, and taking the host's next move. -/

namespace Sys2Proof

/-- The byte at an index of a buffer; none at or beyond the length: "a byte at an index >= PT_LEN has no value and nothing
reads it" (R24). -/
def Memory.byteAt? (m : Memory) (k : Nat) : Option Byte := m[k]?

/-- `MemRead(PT, addr, n)` (R14): the n bytes at indices addr to addr + n - 1. "Defined only when addr + n <= PT_LEN". -/
def Memory.read? (m : Memory) (addr n : Nat) : Option (List Byte) :=
  if addr + n ≤ m.length then some ((m.drop addr).take n) else none

/-- A buffer as (address, byte) pairs, the index in the buffer as the address. -/
def Memory.cells (m : Memory) : List Host.Cell := m.zipIdx.map fun p => (p.2, p.1)

/-- The form of a buffer: it holds at most BUF_CAP bytes (R24). That its addresses rise without a gap from 0 and that none
is listed twice holds by construction (`Memory.cells_rising`). -/
def Memory.wf (cfg : Config) (m : Memory) : Bool := m.length ≤ cfg.bufCap

/-- The first `n` blocks of a byte sequence, in increasing index order. A sequence that ends sooner gives fewer. -/
def takeBlocks : Nat → List Byte → List Block
  | 0, _ => []
  | n + 1, l =>
    if h : 32 ≤ l.length then ⟨l.take 32, by simp [h]⟩ :: takeBlocks n (l.drop 32) else []

/-- The blocks of a buffer: n = length div 32 of them, block i the 32 bytes at indices 32*i to 32*i + 31 (R51, R54). -/
def Memory.blocks (m : Memory) : List Block := takeBlocks (m.length / 32) m

/-- The byte sequence whose block i stands at offset 32*i (R161: `out[32*i .. 32*i + 32) <- …`). -/
def Memory.ofBlocks (bs : List Block) : Memory := bs.flatMap fun b => b.val

namespace Machine

/-- `KEY <- pl; KEY_SET <- 1` (R181). -/
def Context.putKey (c : Context) (b : Block) : Context := { c with key := b, keySet := true }

/-- `IV <- pl; IV_SET <- 1` (R182). -/
def Context.putIv (c : Context) (b : Block) : Context := { c with iv := b, ivSet := true }

/-- `PT <- s; PT_LEN <- |s|; PT_SET <- 1` (R183, R163). Replacement, not merge (R26). -/
def Context.putPt (c : Context) (m : Memory) : Context := { c with pt := m, ptSet := true }

/-- `CT <- s; CT_LEN <- |s|; CT_SET <- 1` (R184, R161). Replacement, not merge (R26). -/
def Context.putCt (c : Context) (m : Memory) : Context := { c with ct := m, ctSet := true }

/-- `KEYROUND <- b` (R140 to R142). -/
def Context.putKeyround (c : Context) (b : Block) : Context := { c with keyround := b }

/-- The state with another context. -/
def State.withCtx (s : State) (c : Context) : State := { s with ctx := c }

/-- The state with one response more, given to the host after those before it (R58). -/
def State.give (s : State) (r : Response) : State := { s with outbox := s.outbox ++ [r] }

/-- `respond(OK, count, data)` (R14): the command ends with success. -/
def respond (count : Nat) (data : List Byte) (s : State) : Host.Outcome State Fault Refusal :=
  .next (s.give ⟨.ok, count, data⟩)

/-- `raise <Error>` (R14): TAKING AN ERROR. R215: "Taking an error is this and no more: the command stops, the response
`STATUS = code, COUNT = 0` is given with no data phase, and the engine is ready for the next command. Nothing is saved, no
mode changes, nothing is masked, control goes nowhere". There is no return from it (R217). -/
def raise (e : Error) (s : State) : Host.Outcome State Fault Refusal :=
  .next (s.give ⟨.error e, 0, []⟩)

/-- The code of a status (R77). -/
def Status.code : Status → Byte
  | .ok => 0x00
  | .error .invalidLength => 0x01
  | .error .tooShort => 0x02
  | .error .missingInput => 0x03
  | .error .corruptPadding => 0x04
  | .error .outOfMemory => 0x05
  | .error .illegalCommand => 0x06

/-- The response word: `RSP = COUNT * 256 + STATUS` (R75). -/
def Response.word (r : Response) : Word := BitVec.ofNat 32 (r.count * 256 + r.status.code.toNat)

/-- A response as a byte stream: its word, low byte first (R53), then its data, index 0 first (R76). -/
def Response.serialise (r : Response) : List Byte := wordBytes r.word ++ r.data

/-- Reset (R240, R242): every field of the context at its reset value, whatever a command in progress had done; no
response is given. The engine keeps its configuration, and the port its record of the responses already given. -/
def takeReset (s : State) : Host.Outcome State Fault Refusal := .next (s.withCtx Context.empty)

/-- An illegal command word (R78, R79): the payload is taken and discarded, no state changes, the response is
IllegalCommand. -/
def takeIllegal (s : State) : Host.Outcome State Fault Refusal := raise .illegalCommand s

/-- No host move: "Between commands the engine is idle and holds its state until the next command or reset" (R224). -/
def idle (s : State) : Host.Outcome State Fault Refusal := .next s

/-- What the engine meets at a command boundary. -/
inductive Met where
  /-- nothing: the engine waits (R241) -/
  | nothing
  /-- reset (R240, R242) -/
  | reset
  /-- an illegal command word (R82) -/
  | illegal
  /-- a command to execute -/
  | instr (i : Instr)
  deriving DecidableEq, Repr

/-- Take the host's next move: what it is, and the state with that move taken. A reset during a command "equals a reset
before it with the command not issued" (R242). -/
def fetch (s : State) : Met × State :=
  match s.inbox with
  | [] => (.nothing, s)
  | .reset :: rest => (.reset, { s with inbox := rest })
  | .resetDuring _ :: rest => (.reset, { s with inbox := rest })
  | .command c :: rest =>
    match decode c with
    | .legal i => (.instr i, { s with inbox := rest })
    | .illegal _ => (.illegal, { s with inbox := rest })

/-- The host adds a move after those it has pending (R248). -/
def State.issue (s : State) (m : HostMove) : State := { s with inbox := s.inbox ++ [m] }

/-- The host issues command `c` before everything it has pending. -/
def State.issueFirst (s : State) (c : Command) : State := { s with inbox := .command c :: s.inbox }

end Machine

end Sys2Proof
end

