-- ==== Sys2Proof/Machine/Block.lean ====
section
/-! DEFINITION. The two functions on blocks (41_xor_and_permutation.md): xor32 and the permutation network perm. Neither
reads or writes state. -/

namespace Sys2Proof.Machine

/-- R120: "the block c with `c[k] = a[k] XOR b[k]` for every k from 0 to 31". Defined on blocks only (R121). -/
def xor32 (a b : Block) : Block := ⟨List.zipWith (· ^^^ ·) a.val b.val, by simp [a.property, b.property]⟩

/-- The number of a byte sequence, index 0 the least significant byte (R53). -/
def natOfBytes : List Byte → Nat
  | [] => 0
  | b :: bs => b.toNat + 256 * natOfBytes bs

/-- R53: "Where a platform presents a block as one 256-bit value V, byte k is V[8k+7 : 8k]". No rule of the engine reads
it. -/
def blockValue (b : Block) : BitVec 256 := BitVec.ofNat 256 (natOfBytes b.val)

/-- The scratch matrix of R30, local to one block: 4 rows of 8 bytes, entry (row, col) byte `col + 8*row` (R52). -/
structure Matrix where
  row0 : List Byte
  row1 : List Byte
  row2 : List Byte
  row3 : List Byte
  deriving DecidableEq, Repr

/-- `M[r][c] <- b[c + 8*r]` (R122). -/
def Matrix.ofBlock (b : Block) : Matrix where
  row0 := b.val.take 8
  row1 := (b.val.drop 8).take 8
  row2 := (b.val.drop 16).take 8
  row3 := (b.val.drop 24).take 8

/-- Step 1 of R122: "swap row 0 ↔ row 2 (all 8 columns)". -/
def Matrix.swapRows02 (m : Matrix) : Matrix := { m with row0 := m.row2, row2 := m.row0 }

/-- Step 2 of R122: "swap row 1 ↔ row 3 (all 8 columns)". -/
def Matrix.swapRows13 (m : Matrix) : Matrix := { m with row1 := m.row3, row3 := m.row1 }

/-- Step 3 of R122: "within every row, mirror columns: swap column `c` ↔ column `7-c`". -/
def Matrix.mirrorColumns (m : Matrix) : Matrix :=
  ⟨m.row0.reverse, m.row1.reverse, m.row2.reverse, m.row3.reverse⟩

/-- `out[c + 8*r] <- M[r][c]` (R122). -/
def Matrix.bytes (m : Matrix) : List Byte := m.row0 ++ m.row1 ++ m.row2 ++ m.row3

/-- The permutation network (R122): the three steps on the matrix of the block. Fixed, not keyed, applied once (R125). -/
def perm (b : Block) : Block :=
  ⟨(Matrix.ofBlock b).swapRows02.swapRows13.mirrorColumns.bytes, by
    have h := b.property
    simp [Matrix.ofBlock, Matrix.swapRows02, Matrix.swapRows13, Matrix.mirrorColumns, Matrix.bytes, h]⟩

end Sys2Proof.Machine
end

