-- ==== Sys2Proof/Machine/Chaining.lean ====
section
/-! DEFINITION. The chaining state manager (42_chaining.md): seed, one block forward, one block back, and the block loop of
ENCRYPT and DECRYPT as a fold over the blocks in index order (R31, R162). -/

namespace Sys2Proof.Machine

/-- `KEYROUND <- xor32(KEY, IV)` (R140): keyround_0. -/
def seed (c : Context) : Block := xor32 c.key c.iv

/-- `enc_block(B)` (R141) with the current KEYROUND: the emitted block `perm(X)` and the new KEYROUND `X`, where
`X = xor32(B, KEYROUND)`. -/
def encBlock (keyround b : Block) : Block × Block := (perm (xor32 b keyround), xor32 b keyround)

/-- `dec_block(C)` (R142) with the current KEYROUND: the recovered block `xor32(X, KEYROUND)`, from the KEYROUND before the
update, and the new KEYROUND `X = perm(C)`. -/
def decBlock (keyround c : Block) : Block × Block := (xor32 (perm c) keyround, perm c)

/-- The block loop (R161, R163): the emitted blocks in order, and the KEYROUND after the last one (R146). -/
def blockLoop (stepBlock : Block → Block → Block × Block) : Block → List Block → List Block × Block
  | keyround, [] => ([], keyround)
  | keyround, b :: bs =>
    let one := stepBlock keyround b
    let others := blockLoop stepBlock one.2 bs
    (one.1 :: others.1, others.2)

/-- The loop of ENCRYPT over the blocks of a plaintext (R161). -/
def encBlocks (keyround : Block) (bs : List Block) : List Block × Block := blockLoop encBlock keyround bs

/-- The loop of DECRYPT over the blocks of a ciphertext (R163). -/
def decBlocks (keyround : Block) (cs : List Block) : List Block × Block := blockLoop decBlock keyround cs

end Sys2Proof.Machine
end

