-- ==== Sys2Proof/Machine/Flags.lean ====
section
/-! DEFINITION. The status registers (R28) and the precondition over the flags (R160). No arithmetic sets a flag (R27). -/

namespace Sys2Proof.Machine

/-- PT_LEN, the length register of PT (R24, R28). -/
def Context.ptLen (c : Context) : Nat := c.pt.length

/-- CT_LEN, the length register of CT (R25, R28). -/
def Context.ctLen (c : Context) : Nat := c.ct.length

/-- FLAGS (R28): bit 0 KEY_SET, bit 1 IV_SET, bit 2 PT_SET, bit 3 CT_SET, bits 7:4 reserved, always 0. -/
def Context.flags (c : Context) : Byte :=
  BitVec.ofNat 8 (c.keySet.toNat + 2 * c.ivSet.toNat + 4 * c.ptSet.toNat + 8 * c.ctSet.toNat)

/-- `ready(SET, LEN) = KEY_SET = 1 and IV_SET = 1 and SET = 1 and LEN > 0 and LEN mod 32 = 0` (R160). -/
def Context.ready (c : Context) (isSet : Bool) (len : Nat) : Bool :=
  c.keySet && c.ivSet && isSet && decide (0 < len) && len % 32 == 0

end Sys2Proof.Machine
end

