-- ==== Sys2Proof/Machine/Padding.lean ====
section
/-! DEFINITION. The padding codec (40_padding_codec.md): pad, unpad, and the command PAD. -/

namespace Sys2Proof.Machine

/-- `n <- 32 - (|s| mod 32)`, 1 <= n <= 32 (R100). -/
def padCount (len : Nat) : Nat := 32 - len % 32

/-- `pad(s) = s ++ rep(n, n)` (R100). -/
def pad (s : List Byte) : List Byte :=
  s ++ List.replicate (padCount s.length) (BitVec.ofNat 8 (padCount s.length))

/-- The three checks of R102 on a sequence whose last byte is `p`: `1 <= p <= 32`, `p <= |s|`, and the trailing p bytes all
equal to p. -/
def paddingOk (s : List Byte) (p : Byte) : Bool :=
  decide (1 ≤ p.toNat) && decide (p.toNat ≤ 32) && decide (p.toNat ≤ s.length) &&
    (s.drop (s.length - p.toNat)).all (· == p)

/-- `unpad(s)` (R102): the sequence without its padding, or none where it is rejected. The empty sequence is rejected
(R103). -/
def unpad (s : List Byte) : Option (List Byte) :=
  match s.getLast? with
  | none => none
  | some p => if paddingOk s p then some (s.take (s.length - p.toNat)) else none

/-- PAD (R106): the payload padded to a multiple of 32 bytes, as the data of the response; no state is touched. -/
def execPad (pl : Payload) (s : State) : Host.Outcome State Fault Refusal :=
  if pl.len.toNat + padCount pl.len.toNat > s.cfg.bufCap then raise .outOfMemory s
  else respond (pl.len.toNat + padCount pl.len.toNat) (pad pl.bytes) s

end Sys2Proof.Machine
end

