-- ==== Sys2Proof/Machine/Cipher.lean ====
section
/-! DEFINITION. The block-wise controller (43_encrypt_decrypt.md): ENCRYPT and DECRYPT. -/

namespace Sys2Proof.Machine

/-- ENCRYPT (R161): the whole of PT into CT, block by block, the chain seeded from KEY and IV. -/
def execEncrypt (s : State) : Host.Outcome State Fault Refusal :=
  if s.ctx.ready s.ctx.ptSet s.ctx.ptLen then
    let out := encBlocks (seed s.ctx) s.ctx.pt.blocks
    let done := (s.ctx.putKeyround out.2).putCt (Memory.ofBlocks out.1)
    respond done.ctLen [] (s.withCtx done)
  else raise .missingInput s

/-- DECRYPT (R163): the whole of CT, block by block with the same chaining, then unpad. Where unpad rejects, KEYROUND has
already run to X_{n-1} and PT keeps what it held (R165). -/
def execDecrypt (s : State) : Host.Outcome State Fault Refusal :=
  if s.ctx.ready s.ctx.ctSet s.ctx.ctLen then
    let out := decBlocks (seed s.ctx) s.ctx.ct.blocks
    let chained := s.ctx.putKeyround out.2
    match unpad (Memory.ofBlocks out.1) with
    | none => raise .corruptPadding (s.withCtx chained)
    | some m => respond (chained.putPt m).ptLen [] (s.withCtx (chained.putPt m))
  else raise .missingInput s

end Sys2Proof.Machine
end

