-- ==== Sys2Proof/Machine/Operands.lean ====
section
/-! DEFINITION. The operand forms: the payload of SET_KEY and SET_IV as a block (R181, R182), the payload of SET_PT and
SET_CT as a buffer (R183, R184, R186). The other commands take no operand, but PAD, whose operand is the payload itself. -/

namespace Sys2Proof.Machine

/-- The payload of SET_KEY or SET_IV: `if LEN != 32: raise InvalidLength` (R181, R182). -/
def blockOperand (pl : Payload) : Except Error Block :=
  if h : pl.len.toNat = 32 then .ok ⟨pl.bytes, pl.bytes_length.trans h⟩ else .error .invalidLength

/-- The payload of SET_PT or SET_CT: `if LEN < 32: raise TooShort`, then `if LEN > BUF_CAP: raise OutOfMemory` (R183, R184,
R214). -/
def bufferOperand (cfg : Config) (pl : Payload) : Except Error Memory :=
  if pl.len.toNat < 32 then .error .tooShort
  else if pl.len.toNat > cfg.bufCap then .error .outOfMemory
  else .ok pl.bytes

end Sys2Proof.Machine
end

