-- ==== Sys2Proof/Machine/ContextCommands.lean ====
section
/-! DEFINITION. The context commands (44_context_commands.md): INIT, SET_KEY, SET_IV, SET_PT, SET_CT, GET_PT, GET_CT and
STAT. -/

namespace Sys2Proof.Machine

/-- INIT (R180): every field empty or zero, all four flags cleared. -/
def execInit (s : State) : Host.Outcome State Fault Refusal := respond 0 [] (s.withCtx Context.empty)

/-- SET_KEY (R181). -/
def execSetKey (pl : Payload) (s : State) : Host.Outcome State Fault Refusal :=
  match blockOperand pl with
  | .error e => raise e s
  | .ok b => respond 0 [] (s.withCtx (s.ctx.putKey b))

/-- SET_IV (R182). -/
def execSetIv (pl : Payload) (s : State) : Host.Outcome State Fault Refusal :=
  match blockOperand pl with
  | .error e => raise e s
  | .ok b => respond 0 [] (s.withCtx (s.ctx.putIv b))

/-- SET_PT (R183). -/
def execSetPt (pl : Payload) (s : State) : Host.Outcome State Fault Refusal :=
  match bufferOperand s.cfg pl with
  | .error e => raise e s
  | .ok m => respond 0 [] (s.withCtx (s.ctx.putPt m))

/-- SET_CT (R184). -/
def execSetCt (pl : Payload) (s : State) : Host.Outcome State Fault Refusal :=
  match bufferOperand s.cfg pl with
  | .error e => raise e s
  | .ok m => respond 0 [] (s.withCtx (s.ctx.putCt m))

/-- GET_PT (R190): `respond(OK, PT_LEN, MemRead(PT, 0, PT_LEN))`, the whole of PT; OK with no data where PT is unset or
empty. -/
def execGetPt (s : State) : Host.Outcome State Fault Refusal := respond s.ctx.ptLen s.ctx.pt s

/-- GET_CT (R191): the whole of CT, in the same way. -/
def execGetCt (s : State) : Host.Outcome State Fault Refusal := respond s.ctx.ctLen s.ctx.ct s

/-- The 8 bytes of STAT (R192): FLAGS, PT_LEN as 3 bytes low first, 0x00, CT_LEN as 3 bytes low first. -/
def Context.statBytes (c : Context) : List Byte :=
  c.flags :: bytesOfNat 3 c.ptLen ++ 0x00 :: bytesOfNat 3 c.ctLen

/-- STAT (R192). -/
def execStat (s : State) : Host.Outcome State Fault Refusal := respond 8 s.ctx.statBytes s

end Sys2Proof.Machine
end

