-- ==== Sys2Proof/Machine/Dispatch.lean ====
section
/-! DEFINITION. One arm per command: its meaning. -/

namespace Sys2Proof.Machine

def exec (i : Instr) (s : State) : Host.Outcome State Fault Refusal :=
  match i with
  | .init => Sys2Proof.Machine.execInit s
  | .setKey pl => Sys2Proof.Machine.execSetKey pl s
  | .setIv pl => Sys2Proof.Machine.execSetIv pl s
  | .setPt pl => Sys2Proof.Machine.execSetPt pl s
  | .setCt pl => Sys2Proof.Machine.execSetCt pl s
  | .encrypt => Sys2Proof.Machine.execEncrypt s
  | .decrypt => Sys2Proof.Machine.execDecrypt s
  | .pad pl => Sys2Proof.Machine.execPad pl s
  | .getPt => Sys2Proof.Machine.execGetPt s
  | .getCt => Sys2Proof.Machine.execGetCt s
  | .stat => Sys2Proof.Machine.execStat s

end Sys2Proof.Machine
end

