-- ==== Sys2Proof/Machine/Step.lean ====
section
/-! DEFINITION. One step of the engine: it takes the host's next move whole (R58, R70: a command is atomic), and the
placing of a table word where the next step takes it. -/

namespace Sys2Proof.Machine

/-- One step: idle, reset, an illegal word, or one command to its response. -/
def step (s : State) : Host.Outcome State Fault Refusal :=
  match fetch s with
  | (.nothing, t) => idle t
  | (.reset, t) => takeReset t
  | (.illegal, t) => takeIllegal t
  | (.instr i, t) => exec i t

/-- The host issues the command whose bits are `w` (numbered as spec/opcode_table.json numbers them) as its next move. -/
def State.withFetchWord (s : State) (nbits w : Nat) : State := s.issueFirst (tableCommand nbits w)

end Sys2Proof.Machine
end

