-- ==== Sys2Proof/Machine/Assembler.lean ====
section
/-! DEFINITION. The line syntax of R83, token by token: a line is a mnemonic and payload items, and stands for one command;
a program is a sequence of lines, issued top to bottom. -/

namespace Sys2Proof.Machine

/-- The mnemonics of R73. -/
inductive Mnemonic where
  | init
  | setKey
  | setIv
  | setPt
  | setCt
  | encrypt
  | decrypt
  | pad
  | getPt
  | getCt
  | stat
  deriving DecidableEq, Repr

/-- The opcode of a mnemonic (R73). -/
def Mnemonic.opc : Mnemonic → Byte
  | .init => 0x01
  | .setKey => 0x02
  | .setIv => 0x03
  | .setPt => 0x04
  | .setCt => 0x05
  | .encrypt => 0x06
  | .decrypt => 0x07
  | .pad => 0x08
  | .getPt => 0x09
  | .getCt => 0x0A
  | .stat => 0x0B

/-- Whether a mnemonic is of format P, that is, takes a payload (R73). -/
def Mnemonic.takesPayload : Mnemonic → Bool
  | .init => false
  | .setKey => true
  | .setIv => true
  | .setPt => true
  | .setCt => true
  | .encrypt => false
  | .decrypt => false
  | .pad => true
  | .getPt => false
  | .getCt => false
  | .stat => false

/-- A payload item of R83: a hexadecimal byte, `<n>*<bb>`, or `"text"`, given by the codes of its characters. -/
inductive Item where
  | byte (b : Byte)
  | times (n : Nat) (b : Byte)
  | text (codes : List Nat)
  deriving DecidableEq, Repr

/-- The bytes of an item. -/
def Item.bytes : Item → List Byte
  | .byte b => [b]
  | .times n b => List.replicate n b
  | .text codes => codes.map (BitVec.ofNat 8)

/-- R83: "`"text"` abbreviates the ASCII bytes of the text", so its codes are below 128. -/
def Item.ascii : Item → Bool
  | .byte _ => true
  | .times _ _ => true
  | .text codes => codes.all (· < 128)

/-- A line: the mnemonic, then, for format P, the items of the payload; no item is the `-` of R83. -/
structure Line where
  mnemonic : Mnemonic
  items : List Item
  deriving DecidableEq, Repr

/-- The payload bytes a line writes, index 0 first. -/
def Line.payload (l : Line) : List Byte := l.items.flatMap Item.bytes

/-- Whether a line is in the syntax of R83: text is ASCII, a format N mnemonic has no payload, and LEN can hold the number of
bytes. -/
def Line.ok (l : Line) : Bool :=
  l.items.all Item.ascii && (l.mnemonic.takesPayload || l.payload.isEmpty) && decide (fitsLen l.payload)

/-- The command of a line: "The command word of a line is `LEN * 256 + OPC` with LEN the number of payload bytes written"
(R83). None where the line is not in the syntax. -/
def Line.command? (l : Line) : Option Command :=
  if h : l.ok then
    some ⟨commandWord (BitVec.ofNat 24 l.payload.length) l.mnemonic.opc, l.payload, by
      have hl : l.payload.length < 16777216 := by
        simp only [Line.ok, Bool.and_eq_true, decide_eq_true_eq] at h
        exact h.2
      rw [lenField_commandWord, BitVec.toNat_ofNat]
      omega⟩
  else none

/-- The host moves of a program, top to bottom (R83); none where some line is not in the syntax. -/
def programMoves : List Line → Option (List HostMove)
  | [] => some []
  | l :: ls =>
    match l.command?, programMoves ls with
    | some c, some moves => some (.command c :: moves)
    | _, _ => none

end Sys2Proof.Machine
end

