-- ==== Sys2Proof/Safety.lean ====
section
/-! DEFINITION. The terms in which statements speak: what holds between commands (R29), what a command leaves unchanged,
what the host can tell apart (R35), and the form of a response (R75, R76). -/

namespace Sys2Proof

/-- A buffer reads as before: the same length, and the same byte, or none, at every index. -/
def Memory.Same (before after : Memory) : Prop :=
  after.length = before.length ∧ ∀ k, after.byteAt? k = before.byteAt? k

namespace Machine

/-- KEY and KEY_SET are unchanged. -/
def Context.KeepsKey (c d : Context) : Prop := d.key = c.key ∧ d.keySet = c.keySet

/-- IV and IV_SET are unchanged. -/
def Context.KeepsIv (c d : Context) : Prop := d.iv = c.iv ∧ d.ivSet = c.ivSet

/-- KEYROUND is unchanged. -/
def Context.KeepsKeyround (c d : Context) : Prop := d.keyround = c.keyround

/-- Every byte of PT, PT_LEN and PT_SET are unchanged. -/
def Context.KeepsPt (c d : Context) : Prop := c.pt.Same d.pt ∧ d.ptSet = c.ptSet

/-- Every byte of CT, CT_LEN and CT_SET are unchanged. -/
def Context.KeepsCt (c d : Context) : Prop := c.ct.Same d.ct ∧ d.ctSet = c.ctSet

/-- Every field of the context is unchanged. -/
def Context.KeepsAll (c d : Context) : Prop :=
  c.KeepsKey d ∧ c.KeepsIv d ∧ c.KeepsKeyround d ∧ c.KeepsPt d ∧ c.KeepsCt d

/-- From `s` to `t` exactly one response was given, `r`, and the configuration and the host's pending moves are as they
were. -/
def State.Answered (s : State) (r : Response) (t : State) : Prop :=
  t.cfg = s.cfg ∧ t.inbox = s.inbox ∧ t.outbox = s.outbox ++ [r]

/-- The response of a success with COUNT = count and the given data. -/
def Response.success (count : Nat) (data : List Byte) : Response := ⟨.ok, count, data⟩

/-- The response of an error: its status, COUNT = 0, no data (R75, R211). -/
def Response.failure (e : Error) : Response := ⟨.error e, 0, []⟩

/-- The assembled plaintext T of DECRYPT, before unpad (R163). -/
def Context.recovered (c : Context) : Memory := Memory.ofBlocks (decBlocks (seed c) c.ct.blocks).1

/-- The form of a response (R75, R76): COUNT fits its 24 bits, an error has COUNT = 0 and no data, and the data phase is
empty or has COUNT bytes. -/
structure Response.WellFormed (r : Response) : Prop where
  count_fits : r.count < 16777216
  error_bare : r.status ≠ .ok → r.count = 0 ∧ r.data = []
  data_counted : r.data = [] ∨ r.data.length = r.count

/-- Whether a host move is a command that is carried to its response: not reset, and not a command abandoned by reset
(R242). -/
def HostMove.isCommand : HostMove → Bool
  | .command _ => true
  | .reset => false
  | .resetDuring _ => false

/-- What holds of the context between commands (R29; R21, R22 and 93_implementation_defined.md U9 for the bytes of an unset
KEY or IV). -/
structure Context.Inv (cfg : Config) (c : Context) : Prop where
  key_unset : c.keySet = false → c.key = Block.zero
  iv_unset : c.ivSet = false → c.iv = Block.zero
  pt_unset : c.ptSet = false → c.ptLen = 0
  ct_unset : c.ctSet = false → c.ctLen = 0
  pt_fits : c.pt.wf cfg = true
  ct_fits : c.ct.wf cfg = true
  ct_block : c.ctSet = true → 32 ≤ c.ctLen

/-- What holds of the whole state between commands: BUF_CAP is legal (R9), the context keeps R29, and every response given
has the form of R75 and R76. -/
structure State.Inv (s : State) : Prop where
  cfg_wf : s.cfg.wf = true
  ctx : s.ctx.Inv s.cfg
  responses : ∀ r ∈ s.outbox, r.WellFormed

/-- Two contexts the host cannot tell apart (R35): they "differ only in KEYROUND, in MATRIX, or in the bytes of an unset KEY
or IV". -/
structure Context.SameToHost (c d : Context) : Prop where
  keySet : d.keySet = c.keySet
  key : c.keySet = true → d.key = c.key
  ivSet : d.ivSet = c.ivSet
  iv : c.ivSet = true → d.iv = c.iv
  pt : d.pt = c.pt
  ptSet : d.ptSet = c.ptSet
  ct : d.ct = c.ct
  ctSet : d.ctSet = c.ctSet

/-- Two states the host cannot tell apart: the same engine, the same host moves pending, the same responses given, and
contexts that are the same to the host. -/
structure State.SameToHost (s t : State) : Prop where
  cfg : t.cfg = s.cfg
  inbox : t.inbox = s.inbox
  outbox : t.outbox = s.outbox
  ctx : s.ctx.SameToHost t.ctx

end Machine

end Sys2Proof
end

