-- ==== Sys2Proof/Certificates/Slice0/Obligations.lean ====
section
/-! DEFINITION. The statements about the engine, for the provers. Each docstring names the rule of spec/ it formalises. A
rule the spec marks [derived: …] is an inference of the spec: a statement of it has basis 'derived'. The fields `cfg`,
`inbox` and `outbox` of State are the model's choice (log entries 2 and 5): where a statement, or `State.Answered` in it,
says that `cfg` and `inbox` are as they were, that clause formalises no rule; `outbox` with one response more is the response
of R70. -/

open Sys2Proof Sys2Proof.Machine

/-! ## Encoding -/

/-- Decoding the encoding of an instruction gives it back, with every payload at every length LEN admits (R71 to R73). -/
def Obligations.DecodeOfEncodeIsTheInstruction : Prop := ∀ i : Instr, decode (encode i) = .legal i

/-- A command that decodes to an instruction is the encoding of that instruction: each legal word and payload has one
meaning (R72, R80). -/
def Obligations.EncodeOfDecodeIsTheCommand : Prop :=
  ∀ (c : Command) (i : Instr), decode c = .legal i → encode i = c

/-- R78, R79, R82: with OPC = CMD mod 256 and LEN = CMD div 256, a command word with a reserved OPC, or a format N opcode
with LEN != 0, is answered IllegalCommand (response word 0x00000006), its payload taken and no state changed; any other
word runs the command of its opcode with its LEN payload bytes. -/
def Obligations.EveryCommandWordIsDecodedOrIllegal : Prop :=
  ∀ (s : State) (c : Command) (rest : List HostMove), s.inbox = .command c :: rest →
    ((c.word.toNat % 256 = 0 ∨ 0x0C ≤ c.word.toNat % 256 ∨
        (c.word.toNat % 256 ∈ [0x01, 0x06, 0x07, 0x09, 0x0A, 0x0B] ∧ c.word.toNat / 256 ≠ 0)) →
      ∃ t, step s = .next t ∧ s.ctx.KeepsAll t.ctx ∧ t.cfg = s.cfg ∧ t.inbox = rest ∧
        t.outbox = s.outbox ++ [Response.failure .illegalCommand] ∧
        (Response.failure .illegalCommand).word = 0x00000006) ∧
    (¬ (c.word.toNat % 256 = 0 ∨ 0x0C ≤ c.word.toNat % 256 ∨
        (c.word.toNat % 256 ∈ [0x01, 0x06, 0x07, 0x09, 0x0A, 0x0B] ∧ c.word.toNat / 256 ≠ 0)) →
      ∃ i, decode c = .legal i ∧ i.opc.toNat = c.word.toNat % 256 ∧ i.payload.len.toNat = c.word.toNat / 256 ∧
        i.payload.bytes = c.payload ∧ step s = exec i { s with inbox := rest })

/-- R74: an instruction is decoded from a word only if the word matches its row of the opcode table, and a word that
matches a row decodes to an instruction of that row. -/
def Obligations.DecodingFollowsTheOpcodeTable : Prop :=
  (∀ (c : Command) (i : Instr), decode c = .legal i → i.row.matchesWord c.word = true) ∧
  (∀ (c : Command) (i : Instr), i.row.matchesWord c.word = true → ∃ j, decode c = .legal j ∧ j.row = i.row)

/-- The worked encodings of 30_encoding.md section 5 (R85, [derived: …]) and the command words of 95_test_vectors.md 2.8: each
word is the encoding of its command and decodes to it, with its payload; the five illegal words decode to no command; the
bytes of 0x00002002; and the two response words of R85. -/
def Obligations.WorkedEncodings : Prop :=
  (∀ p ∈ [((0x00000001 : Word), Instr.init), (0x00000006, .encrypt), (0x00000007, .decrypt), (0x00000009, .getPt),
      (0x0000000A, .getCt), (0x0000000B, .stat)],
    (encode p.2).word = p.1 ∧ ∀ c : Command, c.word = p.1 → decode c = .legal p.2) ∧
  (∀ p ∈ [((0x00002002 : Word), (32 : BitVec 24), Instr.setKey), (0x00001F02, 31, .setKey), (0x00004004, 64, .setPt),
      (0x00000508, 5, .pad), (0x00002808, 40, .pad)],
    (∀ pl : Payload, pl.len = p.2.1 → (encode (p.2.2 pl)).word = p.1) ∧
    ∀ c : Command, c.word = p.1 →
      ∃ pl, decode c = .legal (p.2.2 pl) ∧ pl.len = p.2.1 ∧ pl.bytes = c.payload) ∧
  (∀ c : Command, c.word ∈ [(0x00000000 : Word), 0x0000020C, 0x000000FF, 0x00000101, 0x0000010B] →
    ∃ why, decode c = .illegal why) ∧
  wordBytes 0x00002002 = [0x02, 0x20, 0x00, 0x00] ∧
  (Response.success 64 []).word = 0x00004000 ∧ (Response.failure .invalidLength).word = 0x00000001

/-- Every row of 95_test_vectors.md 2.8 ([derived: …]), the responses of R85 among them: the command word, taken by a step, is
answered with the response word and the data the row gives; an illegal word changes no state. -/
def Obligations.WorkedCommandWordsAreAnsweredAsListed : Prop :=
  ∀ (s : State) (c : Command) (rest : List HostMove), s.inbox = .command c :: rest →
    ∃ t r, step s = .next t ∧ t.outbox = s.outbox ++ [r] ∧
      (c.word = 0x00000001 → r.word = 0x00000000 ∧ r.data = []) ∧
      (c.word = 0x00002002 → r.word = 0x00000000 ∧ r.data = []) ∧
      (c.word = 0x00001F02 → r.word = 0x00000001 ∧ r.data = []) ∧
      (c.word = 0x00002808 → 64 ≤ s.cfg.bufCap → r.word = 0x00004000 ∧ r.data.length = 64) ∧
      (c.word = 0x00000006 → s.ctx.keySet = true → s.ctx.ivSet = true → s.ctx.ptSet = true → s.ctx.ptLen = 64 →
        r.word = 0x00004000 ∧ r.data = []) ∧
      (c.word = 0x00000007 → s.ctx.ready s.ctx.ctSet s.ctx.ctLen = true →
        ∀ m, unpad s.ctx.recovered = some m → m.length = 40 →
          r.word = 0x00002800 ∧ r.data = [] ∧ t.ctx.pt = m) ∧
      (c.word = 0x0000000B → r.word = 0x00000800 ∧ r.data.length = 8) ∧
      (c.word ∈ [(0x00000000 : Word), 0x0000020C, 0x000000FF, 0x00000101, 0x0000010B] →
        r.word = 0x00000006 ∧ r.data = [] ∧ s.ctx.KeepsAll t.ctx)

/-- R53, R72, R81: a command serialised low byte first, followed by anything, is read back whole, with what follows it;
its length in bytes is 4 + LEN. -/
def Obligations.SerialisedCommandsAreReadBack : Prop :=
  ∀ (c : Command) (rest : List Byte),
    parse (c.serialise ++ rest) = .command c rest ∧ c.serialise.length = 4 + c.word.toNat / 256

/-- R53, R75, R76: a response serialised low byte first and followed by anything begins with its status byte and the three bytes
of COUNT, low byte first, then its data, and has 4 bytes, or 4 + COUNT where it has data; so two responses whose byte
streams agree, both with data or both without, are one response, and what follows them is the same. -/
def Obligations.SerialisedResponsesAreReadBack : Prop :=
  ∀ (r : Response) (rest : List Byte), r.WellFormed →
    (∃ b1 b2 b3 : Byte, r.serialise ++ rest = r.status.code :: b1 :: b2 :: b3 :: (r.data ++ rest) ∧
      wordOfBytes r.status.code b1 b2 b3 = r.word ∧
      b1.toNat + 256 * b2.toNat + 65536 * b3.toNat = r.count ∧
      r.serialise.length = if r.data = [] then 4 else 4 + r.count) ∧
    ∀ (q : Response) (more : List Byte), q.WellFormed → (q.data = [] ↔ r.data = []) →
      q.serialise ++ more = r.serialise ++ rest → q = r ∧ more = rest

/-- R53: in the 256-bit value of a block, byte k is at bits 8k+7 : 8k. -/
def Obligations.BlockValueHoldsByteKAtBit8k : Prop :=
  ∀ (b : Block) (k : Nat), k < 32 → b.val[k]? = some ((blockValue b).extractLsb' (8 * k) 8)

/-- R83: the command of a line in the syntax has word LEN * 256 + OPC, LEN the number of payload bytes written, and decodes
to an instruction with the opcode of its mnemonic and that payload; a line outside the syntax has none. Where the syntax
starts and ends is the model's choice (log entry 14). -/
def Obligations.AssembledLinesDecodeToTheirCommand : Prop :=
  ∀ l : Line, (l.ok = false → l.command? = none) ∧
    (l.ok = true → ∃ (c : Command) (i : Instr), l.command? = some c ∧
      c.word.toNat = l.payload.length * 256 + l.mnemonic.opc.toNat ∧ c.payload = l.payload ∧
      decode c = .legal i ∧ i.opc = l.mnemonic.opc ∧ i.payload.bytes = l.payload)

/-- The status codes of R77 and their order. -/
def Obligations.StatusCodesAreThoseOfTheTable : Prop :=
  (Status.ok.code.toNat = 0x00 ∧ (Status.error .invalidLength).code.toNat = 0x01 ∧
    (Status.error .tooShort).code.toNat = 0x02 ∧ (Status.error .missingInput).code.toNat = 0x03 ∧
    (Status.error .corruptPadding).code.toNat = 0x04 ∧ (Status.error .outOfMemory).code.toNat = 0x05 ∧
    (Status.error .illegalCommand).code.toNat = 0x06) ∧
  ∀ st : Status, st.code.toNat ≤ 0x06

/-! ## The step and reset -/

/-- A step runs the decoded instruction: where the host's next move is a command that decodes to `i`, the step is `exec i`
at the state with that move taken (R58, R70). -/
def Obligations.StepRunsTheDecodedInstruction : Prop :=
  ∀ (s : State) (c : Command) (rest : List HostMove) (i : Instr),
    s.inbox = .command c :: rest → decode c = .legal i → step s = exec i { s with inbox := rest }

/-- R224, R241: with no host move pending the engine holds its state; so does an engine of any BUF_CAP right
after reset. That waiting is a step which leaves the state as it is, is the model's choice (log entry 5). -/
def Obligations.TheEngineWaitsForACommand : Prop :=
  (∀ s : State, s.inbox = [] → step s = .next s) ∧
  ∀ cfg : Config, step (State.resetWith cfg) = .next (State.resetWith cfg)

/-- R33, R240, R242: reset, also while a command is in progress, puts every field in the state of R33, which is also the state
INIT leaves; it gives no response. `State.reset`, the state at power-up, has the same fields. That reset keeps `cfg` and
takes no further move is the model's choice (log entry 7). -/
def Obligations.ResetEmptiesTheContextAtAnyTime : Prop :=
  ∀ (s : State) (c : Command) (rest : List HostMove),
    (s.inbox = .reset :: rest ∨ s.inbox = .resetDuring c :: rest) →
    ∃ t u, step s = .next t ∧ exec .init s = .next u ∧ t.ctx = u.ctx ∧
      t.inbox = rest ∧ t.outbox = s.outbox ∧ t.cfg = s.cfg ∧
      t.ctx.key.val = List.replicate 32 0 ∧ t.ctx.keySet = false ∧
      t.ctx.iv.val = List.replicate 32 0 ∧ t.ctx.ivSet = false ∧
      t.ctx.keyround.val = List.replicate 32 0 ∧
      t.ctx.pt = [] ∧ t.ctx.ptLen = 0 ∧ t.ctx.ptSet = false ∧
      t.ctx.ct = [] ∧ t.ctx.ctLen = 0 ∧ t.ctx.ctSet = false ∧ t.ctx.flags = 0x00 ∧ t.ctx = State.reset.ctx

/-- R33, less MATRIX, which is not state (00_scope.md R16): after reset every field has the value INIT gives it, for every
BUF_CAP. That nothing is pending and nothing given is the model's choice (log entry 5). -/
def Obligations.TheResetStateIsWhatInitLeaves : Prop :=
  State.reset.ctx.flags = 0x00 ∧ State.reset.inbox = [] ∧ State.reset.outbox = [] ∧
  ∀ (cfg : Config) (s : State), ∃ t, exec .init s = .next t ∧
    t.ctx = (State.resetWith cfg).ctx ∧ t.ctx = State.reset.ctx

/-- R9, R29: right after reset, for every legal BUF_CAP, the invariant of the state holds. `State.reset` has BUF_CAP = 96 by
the model's choice (log entry 1); the invariant's clauses on an unset KEY or IV are log entry 12. -/
def Obligations.InvariantHoldsAtReset : Prop :=
  State.reset.Inv ∧ ∀ cfg : Config, cfg.wf = true → (State.resetWith cfg).Inv

/-- Every step keeps the invariant: BUF_CAP legal (R9), an unset buffer empty, both buffers within BUF_CAP, a set ciphertext at
least one block (R29, [derived: …]), and every response of the form of R75 and R76. That the bytes of an unset KEY or IV are
zero is the model's inference from R21, R22, R27 and R33 (log entry 12, DEDUCED). -/
def Obligations.EveryStepKeepsTheInvariant : Prop :=
  ∀ s t : State, s.Inv → step s = .next t → t.Inv

/-- R225 ([derived: …]), R248, R249: from reset, with any legal BUF_CAP (R9) and any finite sequence of host moves, the run
goes on to its end without a fault or a refusal, every move is taken, exactly one response is given per command not
abandoned by reset, and the invariant holds at its end (R29, [derived: …], and log entry 12 for the bytes of an unset KEY
or IV). -/
def Obligations.EveryRunFromResetAnswersEachCommandOnce : Prop :=
  ∀ (cfg : Config) (moves : List HostMove), cfg.wf = true →
    ∃ t : State,
      Host.Core.run Sys2Proof.core moves.length { State.resetWith cfg with inbox := moves } = .next t ∧
      t.Inv ∧ t.inbox = [] ∧ t.cfg = cfg ∧
      t.outbox.length = (moves.filter HostMove.isCommand).length

/-! ## Responses and errors -/

/-- R75, R76: one response per command; RSP = COUNT * 256 + STATUS; an error has COUNT = 0 and no data; on success COUNT is
as the table of R75 says, and PAD, GET_PT, GET_CT and STAT, and no other command, send COUNT data bytes; an illegal word
is answered with one response too, an error. -/
def Obligations.CountsAndDataPhases : Prop :=
  (∀ (s : State) (c : Command) (rest : List HostMove) (why : Illegal), s.inbox = .command c :: rest →
    decode c = .illegal why → ∃ t r, step s = .next t ∧ t.outbox = s.outbox ++ [r] ∧
      r.word.toNat = r.status.code.toNat ∧ r.status ≠ .ok ∧ r.count = 0 ∧ r.data = []) ∧
  ∀ (i : Instr) (s : State), s.Inv → ∃ t r, exec i s = .next t ∧ s.Answered r t ∧
    r.word.toNat = r.count * 256 + r.status.code.toNat ∧
    (r.status ≠ .ok → r.count = 0 ∧ r.data = []) ∧
    (r.status = .ok →
      match i with
      | .init => r.count = 0 ∧ r.data = []
      | .setKey _ => r.count = 0 ∧ r.data = []
      | .setIv _ => r.count = 0 ∧ r.data = []
      | .setPt _ => r.count = 0 ∧ r.data = []
      | .setCt _ => r.count = 0 ∧ r.data = []
      | .encrypt => r.count = t.ctx.ctLen ∧ r.data = []
      | .decrypt => r.count = t.ctx.ptLen ∧ r.data = []
      | .pad pl => r.count = (pad pl.bytes).length ∧ r.data.length = r.count
      | .getPt => r.count = s.ctx.ptLen ∧ r.data.length = r.count
      | .getCt => r.count = s.ctx.ctLen ∧ r.data.length = r.count
      | .stat => r.count = 8 ∧ r.data.length = r.count)

/-- R210: every error, its code, the commands that raise it and its exact condition. -/
def Obligations.EachErrorHasExactlyItsCause : Prop :=
  (∀ (i : Instr) (s t : State) (r : Response), s.cfg.wf = true → exec i s = .next t → s.Answered r t →
    (r.status = .error .invalidLength ↔
      ∃ pl, (i = .setKey pl ∨ i = .setIv pl) ∧ pl.len.toNat ≠ 32) ∧
    (r.status = .error .tooShort ↔
      ∃ pl, (i = .setPt pl ∨ i = .setCt pl) ∧ pl.len.toNat < 32) ∧
    (r.status = .error .missingInput ↔
      (i = .encrypt ∧ (s.ctx.keySet = false ∨ s.ctx.ivSet = false ∨ s.ctx.ptSet = false ∨
        s.ctx.ptLen = 0 ∨ s.ctx.ptLen % 32 ≠ 0)) ∨
      (i = .decrypt ∧ (s.ctx.keySet = false ∨ s.ctx.ivSet = false ∨ s.ctx.ctSet = false ∨
        s.ctx.ctLen = 0 ∨ s.ctx.ctLen % 32 ≠ 0))) ∧
    (r.status = .error .corruptPadding ↔
      i = .decrypt ∧ s.ctx.keySet = true ∧ s.ctx.ivSet = true ∧ s.ctx.ctSet = true ∧
        s.ctx.ctLen ≠ 0 ∧ s.ctx.ctLen % 32 = 0 ∧
        ∀ p : Byte, s.ctx.recovered.getLast? = some p →
          ¬ (1 ≤ p.toNat ∧ p.toNat ≤ 32) ∨
          ∃ k < p.toNat, s.ctx.recovered.byteAt? (s.ctx.ctLen - 1 - k) ≠ some p) ∧
    (r.status = .error .outOfMemory ↔
      ∃ pl, ((i = .setPt pl ∨ i = .setCt pl) ∧ pl.len.toNat > s.cfg.bufCap) ∨
        (i = .pad pl ∧ pl.len.toNat ≥ s.cfg.bufCap)) ∧
    r.status ≠ .error .illegalCommand) ∧
  (∀ (s t : State) (c : Command) (rest : List HostMove) (r : Response),
    s.inbox = .command c :: rest → step s = .next t → t.outbox = s.outbox ++ [r] →
    (r.status = .error .illegalCommand ↔
      c.word.toNat % 256 = 0 ∨ 0x0C ≤ c.word.toNat % 256 ∨
        (c.word.toNat % 256 ∈ [0x01, 0x06, 0x07, 0x09, 0x0A, 0x0B] ∧ c.word.toNat / 256 ≠ 0))) ∧
  (Status.error .invalidLength).code = 0x01 ∧ (Status.error .tooShort).code = 0x02 ∧
  (Status.error .missingInput).code = 0x03 ∧ (Status.error .corruptPadding).code = 0x04 ∧
  (Status.error .outOfMemory).code = 0x05 ∧ (Status.error .illegalCommand).code = 0x06

/-- R215, R216 ([derived: …]): a command that ends in an error leaves the state as it was, with the single exception of
KEYROUND after CorruptPadding, which is perm of the last ciphertext block; every flag and both buffers are kept there too. -/
def Obligations.AnErrorLeavesTheStateAsItWas : Prop :=
  ∀ (i : Instr) (s t : State) (e : Error), exec i s = .next t → s.Answered (Response.failure e) t →
    (e ≠ .corruptPadding → s.ctx.KeepsAll t.ctx) ∧
    (e = .corruptPadding → i = .decrypt ∧ s.ctx.KeepsKey t.ctx ∧ s.ctx.KeepsIv t.ctx ∧ s.ctx.KeepsPt t.ctx ∧
      s.ctx.KeepsCt t.ctx ∧
      ∃ last : Block, s.ctx.ct.read? (s.ctx.ctLen - 32) 32 = some last.val ∧ t.ctx.keyround = perm last)

/-- R57, R218 ([derived: …]): a command repeated at once gives the same response, success or error, and changes no state. -/
def Obligations.ARepeatedCommandGivesTheSameResponse : Prop :=
  ∀ (i : Instr) (s t : State) (r : Response), exec i s = .next t → s.Answered r t →
    ∃ u, exec i t = .next u ∧ t.Answered r u ∧ t.ctx.KeepsAll u.ctx

/-! ## The context commands -/

/-- R180: INIT empties the context, clears all four flags, answers OK, and leaves the reset state; it is the only command
that unsets a field. -/
def Obligations.InitEmptiesTheContext : Prop :=
  ∀ s : State, (encode .init).word = 0x00000001 ∧
    (∃ t, exec .init s = .next t ∧ s.Answered (Response.success 0 []) t ∧
      t.ctx.key.val = List.replicate 32 0 ∧ t.ctx.keySet = false ∧
      t.ctx.iv.val = List.replicate 32 0 ∧ t.ctx.ivSet = false ∧
      t.ctx.pt = [] ∧ t.ctx.ptLen = 0 ∧ t.ctx.ptSet = false ∧
      t.ctx.ct = [] ∧ t.ctx.ctLen = 0 ∧ t.ctx.ctSet = false ∧
      t.ctx.keyround.val = List.replicate 32 0 ∧ t.ctx = State.reset.ctx) ∧
    ∀ (i : Instr) (u : State), exec i s = .next u →
      ((s.ctx.keySet = true ∧ u.ctx.keySet = false) ∨ (s.ctx.ivSet = true ∧ u.ctx.ivSet = false) ∨
        (s.ctx.ptSet = true ∧ u.ctx.ptSet = false) ∨ (s.ctx.ctSet = true ∧ u.ctx.ctSet = false)) → i = .init

/-- R181: SET_KEY with LEN = 32 puts its payload in KEY, sets KEY_SET, answers OK and changes nothing else; with any other
LEN it answers InvalidLength and changes nothing. -/
def Obligations.SetKeySetsTheKeyOrChangesNothing : Prop :=
  ∀ (pl : Payload) (s : State), (encode (.setKey pl)).word.toNat = pl.len.toNat * 256 + 0x02 ∧
    (pl.len.toNat = 32 → ∃ t, exec (.setKey pl) s = .next t ∧ s.Answered (Response.success 0 []) t ∧
      t.ctx.key.val = pl.bytes ∧ t.ctx.keySet = true ∧
      s.ctx.KeepsIv t.ctx ∧ s.ctx.KeepsKeyround t.ctx ∧ s.ctx.KeepsPt t.ctx ∧ s.ctx.KeepsCt t.ctx) ∧
    (pl.len.toNat ≠ 32 → ∃ t, exec (.setKey pl) s = .next t ∧
      s.Answered (Response.failure .invalidLength) t ∧ s.ctx.KeepsAll t.ctx)

/-- R182: SET_IV, in the same way. -/
def Obligations.SetIvSetsTheIvOrChangesNothing : Prop :=
  ∀ (pl : Payload) (s : State), (encode (.setIv pl)).word.toNat = pl.len.toNat * 256 + 0x03 ∧
    (pl.len.toNat = 32 → ∃ t, exec (.setIv pl) s = .next t ∧ s.Answered (Response.success 0 []) t ∧
      t.ctx.iv.val = pl.bytes ∧ t.ctx.ivSet = true ∧
      s.ctx.KeepsKey t.ctx ∧ s.ctx.KeepsKeyround t.ctx ∧ s.ctx.KeepsPt t.ctx ∧ s.ctx.KeepsCt t.ctx) ∧
    (pl.len.toNat ≠ 32 → ∃ t, exec (.setIv pl) s = .next t ∧
      s.Answered (Response.failure .invalidLength) t ∧ s.ctx.KeepsAll t.ctx)

/-- R183, R187: SET_PT with 32 <= LEN <= BUF_CAP makes its payload the whole of PT, sets PT_SET, answers OK and changes
nothing else; LEN < 32 is TooShort and LEN > BUF_CAP is OutOfMemory, and then nothing changes. -/
def Obligations.SetPtReplacesThePlaintextOrChangesNothing : Prop :=
  ∀ (pl : Payload) (s : State), (encode (.setPt pl)).word.toNat = pl.len.toNat * 256 + 0x04 ∧
    (32 ≤ pl.len.toNat ∧ pl.len.toNat ≤ s.cfg.bufCap →
      ∃ t, exec (.setPt pl) s = .next t ∧ s.Answered (Response.success 0 []) t ∧
        t.ctx.pt = pl.bytes ∧ t.ctx.ptLen = pl.len.toNat ∧ t.ctx.ptSet = true ∧
        s.ctx.KeepsKey t.ctx ∧ s.ctx.KeepsIv t.ctx ∧ s.ctx.KeepsKeyround t.ctx ∧ s.ctx.KeepsCt t.ctx) ∧
    (pl.len.toNat < 32 → ∃ t, exec (.setPt pl) s = .next t ∧
      s.Answered (Response.failure .tooShort) t ∧ s.ctx.KeepsAll t.ctx) ∧
    (32 ≤ s.cfg.bufCap ∧ s.cfg.bufCap < pl.len.toNat → ∃ t, exec (.setPt pl) s = .next t ∧
      s.Answered (Response.failure .outOfMemory) t ∧ s.ctx.KeepsAll t.ctx)

/-- R184, R187: SET_CT, in the same way. -/
def Obligations.SetCtReplacesTheCiphertextOrChangesNothing : Prop :=
  ∀ (pl : Payload) (s : State), (encode (.setCt pl)).word.toNat = pl.len.toNat * 256 + 0x05 ∧
    (32 ≤ pl.len.toNat ∧ pl.len.toNat ≤ s.cfg.bufCap →
      ∃ t, exec (.setCt pl) s = .next t ∧ s.Answered (Response.success 0 []) t ∧
        t.ctx.ct = pl.bytes ∧ t.ctx.ctLen = pl.len.toNat ∧ t.ctx.ctSet = true ∧
        s.ctx.KeepsKey t.ctx ∧ s.ctx.KeepsIv t.ctx ∧ s.ctx.KeepsKeyround t.ctx ∧ s.ctx.KeepsPt t.ctx) ∧
    (pl.len.toNat < 32 → ∃ t, exec (.setCt pl) s = .next t ∧
      s.Answered (Response.failure .tooShort) t ∧ s.ctx.KeepsAll t.ctx) ∧
    (32 ≤ s.cfg.bufCap ∧ s.cfg.bufCap < pl.len.toNat → ∃ t, exec (.setCt pl) s = .next t ∧
      s.Answered (Response.failure .outOfMemory) t ∧ s.ctx.KeepsAll t.ctx)

/-- R190: GET_PT answers OK with COUNT = PT_LEN and the data MemRead(PT, 0, PT_LEN), and changes nothing; where PT is unset
COUNT is 0 and there is no data. -/
def Obligations.GetPtReturnsThePlaintext : Prop :=
  ∀ s : State, (encode .getPt).word = 0x00000009 ∧
    ∃ (t : State) (data : List Byte), exec .getPt s = .next t ∧ s.Answered (Response.success s.ctx.ptLen data) t ∧
      s.ctx.pt.read? 0 s.ctx.ptLen = some data ∧ s.ctx.KeepsAll t.ctx ∧
      (s.Inv → s.ctx.ptSet = false → s.ctx.ptLen = 0 ∧ data = [])

/-- R191: GET_CT, in the same way. -/
def Obligations.GetCtReturnsTheCiphertext : Prop :=
  ∀ s : State, (encode .getCt).word = 0x0000000A ∧
    ∃ (t : State) (data : List Byte), exec .getCt s = .next t ∧ s.Answered (Response.success s.ctx.ctLen data) t ∧
      s.ctx.ct.read? 0 s.ctx.ctLen = some data ∧ s.ctx.KeepsAll t.ctx ∧
      (s.Inv → s.ctx.ctSet = false → s.ctx.ctLen = 0 ∧ data = [])

/-- R192, R28: STAT answers OK with 8 bytes: FLAGS with its four bits and zeros above, PT_LEN and CT_LEN as three bytes each,
low byte first, a zero byte between; it changes nothing. -/
def Obligations.StatReturnsFlagsAndLengths : Prop :=
  ∀ s : State, s.Inv → (encode .stat).word = 0x0000000B ∧
    ∃ (t : State) (d0 d1 d2 d3 d5 d6 d7 : Byte), exec .stat s = .next t ∧
      s.Answered (Response.success 8 [d0, d1, d2, d3, 0x00, d5, d6, d7]) t ∧ s.ctx.KeepsAll t.ctx ∧
      d0.getLsbD 0 = s.ctx.keySet ∧ d0.getLsbD 1 = s.ctx.ivSet ∧ d0.getLsbD 2 = s.ctx.ptSet ∧
      d0.getLsbD 3 = s.ctx.ctSet ∧ d0.toNat < 16 ∧
      d1.toNat + 256 * d2.toNat + 65536 * d3.toNat = s.ctx.ptLen ∧
      d5.toNat + 256 * d6.toNat + 65536 * d7.toNat = s.ctx.ctLen

/-- R106: PAD answers OK with its payload followed by n bytes of value n, n = 32 - LEN mod 32, where LEN + n fits BUF_CAP,
and OutOfMemory where it does not; it changes nothing. For a legal BUF_CAP it succeeds exactly when LEN < BUF_CAP. -/
def Obligations.PadReturnsThePaddedPayload : Prop :=
  ∀ (pl : Payload) (s : State), (encode (.pad pl)).word.toNat = pl.len.toNat * 256 + 0x08 ∧
    ∃ n : Nat, n = 32 - pl.len.toNat % 32 ∧
      (pl.len.toNat + n ≤ s.cfg.bufCap → ∃ t, exec (.pad pl) s = .next t ∧
        s.Answered (Response.success (pl.len.toNat + n) (pl.bytes ++ List.replicate n (BitVec.ofNat 8 n))) t ∧
        s.ctx.KeepsAll t.ctx) ∧
      (s.cfg.bufCap < pl.len.toNat + n → ∃ t, exec (.pad pl) s = .next t ∧
        s.Answered (Response.failure .outOfMemory) t ∧ s.ctx.KeepsAll t.ctx) ∧
      (s.cfg.wf = true → (pl.len.toNat + n ≤ s.cfg.bufCap ↔ pl.len.toNat < s.cfg.bufCap))

/-! ## ENCRYPT and DECRYPT -/

/-- R160: ENCRYPT answers MissingInput, and changes nothing, where key, iv or plaintext is unset or the plaintext length is
zero or not a multiple of 32; DECRYPT likewise with the ciphertext. ENCRYPT does not look at CT, nor DECRYPT at PT. -/
def Obligations.MissingInputIsCheckedFirst : Prop :=
  ∀ s : State,
    ((s.ctx.keySet = false ∨ s.ctx.ivSet = false ∨ s.ctx.ptSet = false ∨ s.ctx.ptLen = 0 ∨ s.ctx.ptLen % 32 ≠ 0) →
      ∃ t, exec .encrypt s = .next t ∧ s.Answered (Response.failure .missingInput) t ∧ s.ctx.KeepsAll t.ctx) ∧
    ((s.ctx.keySet = false ∨ s.ctx.ivSet = false ∨ s.ctx.ctSet = false ∨ s.ctx.ctLen = 0 ∨ s.ctx.ctLen % 32 ≠ 0) →
      ∃ t, exec .decrypt s = .next t ∧ s.Answered (Response.failure .missingInput) t ∧ s.ctx.KeepsAll t.ctx) ∧
    (¬ (s.ctx.keySet = false ∨ s.ctx.ivSet = false ∨ s.ctx.ptSet = false ∨ s.ctx.ptLen = 0 ∨ s.ctx.ptLen % 32 ≠ 0) →
      ∃ t r, exec .encrypt s = .next t ∧ s.Answered r t ∧ r.status ≠ .error .missingInput) ∧
    (¬ (s.ctx.keySet = false ∨ s.ctx.ivSet = false ∨ s.ctx.ctSet = false ∨ s.ctx.ctLen = 0 ∨ s.ctx.ctLen % 32 ≠ 0) →
      ∃ t r, exec .decrypt s = .next t ∧ s.Answered r t ∧ r.status ≠ .error .missingInput)

/-- R161, R140, R141: where the precondition holds, ENCRYPT answers OK with COUNT = PT_LEN. There are keyrounds
k_0 .. k_n, n = PT_LEN div 32, with k_0 = xor32(KEY, IV) and k_(i+1) = xor32(B_i, k_i) for the block B_i that MemRead(PT,
32*i, 32) gives; block i of the new CT is perm(k_(i+1)); KEYROUND is k_n; CT_SET is 1; the rest is unchanged. Where the precondition fails it answers MissingInput and changes
nothing. -/
def Obligations.EncryptChainsEveryBlockIntoTheCiphertext : Prop :=
  ∀ s : State, (encode .encrypt).word = 0x00000006 ∧
    (s.ctx.keySet = true → s.ctx.ivSet = true → s.ctx.ptSet = true → 0 < s.ctx.ptLen → s.ctx.ptLen % 32 = 0 →
      ∃ (t : State) (k : Nat → Block), exec .encrypt s = .next t ∧
        s.Answered (Response.success s.ctx.ptLen []) t ∧
        k 0 = xor32 s.ctx.key s.ctx.iv ∧
        (∀ i < s.ctx.ptLen / 32, ∃ b : Block, s.ctx.pt.read? (32 * i) 32 = some b.val ∧
          k (i + 1) = xor32 b (k i) ∧ t.ctx.ct.read? (32 * i) 32 = some (perm (k (i + 1))).val) ∧
        t.ctx.ctLen = s.ctx.ptLen ∧ t.ctx.ctSet = true ∧ t.ctx.keyround = k (s.ctx.ptLen / 32) ∧
        s.ctx.KeepsKey t.ctx ∧ s.ctx.KeepsIv t.ctx ∧ s.ctx.KeepsPt t.ctx) ∧
    (¬ (s.ctx.keySet = true ∧ s.ctx.ivSet = true ∧ s.ctx.ptSet = true ∧ 0 < s.ctx.ptLen ∧ s.ctx.ptLen % 32 = 0) →
      ∃ t, exec .encrypt s = .next t ∧ s.Answered (Response.failure .missingInput) t ∧ s.ctx.KeepsAll t.ctx)

/-- R163, R165, R140, R142: where the precondition holds, there are an assembled plaintext T of CT_LEN bytes and keyrounds
k_0 .. k_n, n = CT_LEN div 32, with k_0 = xor32(KEY, IV), k_(i+1) = perm(C_i) and block i of T = xor32(perm(C_i), k_i),
for the block C_i that MemRead(CT, 32*i, 32) gives. If T = m ++ rep(p, p) with 1 <= p <= 32, DECRYPT answers OK with
COUNT = |m| and makes m the whole of PT with PT_SET = 1; if T has no such form, it answers CorruptPadding and PT, PT_LEN and
PT_SET are as before. Either way KEYROUND is k_n and KEY, IV and CT are unchanged. Where the precondition fails it answers
MissingInput and changes nothing. -/
def Obligations.DecryptRecoversAndUnpadsThePlaintext : Prop :=
  ∀ s : State, (encode .decrypt).word = 0x00000007 ∧
    (s.ctx.keySet = true → s.ctx.ivSet = true → s.ctx.ctSet = true → 0 < s.ctx.ctLen → s.ctx.ctLen % 32 = 0 →
      ∃ (t : State) (r : Response) (T : Memory) (k : Nat → Block), exec .decrypt s = .next t ∧ s.Answered r t ∧
        T.length = s.ctx.ctLen ∧ k 0 = xor32 s.ctx.key s.ctx.iv ∧
        (∀ i < s.ctx.ctLen / 32, ∃ c : Block, s.ctx.ct.read? (32 * i) 32 = some c.val ∧
          k (i + 1) = perm c ∧ T.read? (32 * i) 32 = some (xor32 (perm c) (k i)).val) ∧
        t.ctx.keyround = k (s.ctx.ctLen / 32) ∧
        s.ctx.KeepsKey t.ctx ∧ s.ctx.KeepsIv t.ctx ∧ s.ctx.KeepsCt t.ctx ∧
        (∀ (m : Memory) (p : Nat), 1 ≤ p → p ≤ 32 → T = m ++ List.replicate p (BitVec.ofNat 8 p) →
          r = Response.success m.length [] ∧ t.ctx.pt = m ∧ t.ctx.ptLen = s.ctx.ctLen - p ∧ t.ctx.ptSet = true) ∧
        ((∀ (m : Memory) (p : Nat), 1 ≤ p → p ≤ 32 → T ≠ m ++ List.replicate p (BitVec.ofNat 8 p)) →
          r = Response.failure .corruptPadding ∧ s.ctx.KeepsPt t.ctx)) ∧
    (¬ (s.ctx.keySet = true ∧ s.ctx.ivSet = true ∧ s.ctx.ctSet = true ∧ 0 < s.ctx.ctLen ∧ s.ctx.ctLen % 32 = 0) →
      ∃ t, exec .decrypt s = .next t ∧ s.Answered (Response.failure .missingInput) t ∧ s.ctx.KeepsAll t.ctx)

/-- R168: ENCRYPT and DECRYPT never raise OutOfMemory: ENCRYPT writes CT_LEN = PT_LEN <= BUF_CAP, and DECRYPT writes
PT_LEN < CT_LEN <= BUF_CAP. -/
def Obligations.CipherOutputsAlwaysFit : Prop :=
  ∀ s : State, s.Inv →
    (∃ t r, exec .encrypt s = .next t ∧ s.Answered r t ∧ r.status ≠ .error .outOfMemory ∧
      (r.status = .ok → t.ctx.ctLen = s.ctx.ptLen ∧ t.ctx.ctLen ≤ s.cfg.bufCap)) ∧
    (∃ t r, exec .decrypt s = .next t ∧ s.Answered r t ∧ r.status ≠ .error .outOfMemory ∧
      (r.status = .ok → t.ctx.ptLen < s.ctx.ctLen ∧ s.ctx.ctLen ≤ s.cfg.bufCap))

/-- R145, R167 ([derived: …] for R145): ENCRYPT's response and result depend on KEY XOR IV, the flags it reads and PT only:
not on CT, on KEYROUND or on anything an earlier call left. -/
def Obligations.EncryptDependsOnlyOnKeyXorIvAndPlaintext : Prop :=
  ∀ s s' : State, xor32 s'.ctx.key s'.ctx.iv = xor32 s.ctx.key s.ctx.iv →
    s'.ctx.keySet = s.ctx.keySet → s'.ctx.ivSet = s.ctx.ivSet → s'.ctx.ptSet = s.ctx.ptSet → s'.ctx.pt = s.ctx.pt →
    ∃ t t' r, exec .encrypt s = .next t ∧ s.Answered r t ∧ exec .encrypt s' = .next t' ∧ s'.Answered r t' ∧
      (r.status = .ok → t.ctx.ct.Same t'.ctx.ct ∧ t'.ctx.keyround = t.ctx.keyround)

/-- R145, R163 ([derived: …] for R145): a wrong KEY or IV changes only block 0 of what DECRYPT recovers. -/
def Obligations.AWrongKeyDamagesOnlyTheFirstBlock : Prop :=
  ∀ c d : Context, d.ct = c.ct → d.recovered.length = c.recovered.length ∧
    ∀ k, 32 ≤ k → d.recovered.byteAt? k = c.recovered.byteAt? k

/-- R166 ([derived: …]): the round trip. With key and iv set, for every message m with |m| < BUF_CAP: PAD m (data d);
SET_PT d; ENCRYPT; GET_CT (data c); SET_CT c; DECRYPT; GET_PT answers m, and every response is OK; and DECRYPT; GET_PT
straight after ENCRYPT answers m too. -/
def Obligations.RoundTripReturnsTheMessage : Prop :=
  ∀ (s : State) (m : Payload), s.cfg.wf = true → s.ctx.keySet = true → s.ctx.ivSet = true →
    m.len.toNat < s.cfg.bufCap →
    ∃ (d c : Payload) (s1 s2 s3 s4 s5 s6 s7 u v : State),
      exec (.pad m) s = .next s1 ∧ s.Answered (Response.success d.len.toNat d.bytes) s1 ∧
      exec (.setPt d) s1 = .next s2 ∧ s1.Answered (Response.success 0 []) s2 ∧
      exec .encrypt s2 = .next s3 ∧ s2.Answered (Response.success d.len.toNat []) s3 ∧
      exec .getCt s3 = .next s4 ∧ s3.Answered (Response.success c.len.toNat c.bytes) s4 ∧
      exec (.setCt c) s4 = .next s5 ∧ s4.Answered (Response.success 0 []) s5 ∧
      exec .decrypt s5 = .next s6 ∧ s5.Answered (Response.success m.len.toNat []) s6 ∧
      exec .getPt s6 = .next s7 ∧ s6.Answered (Response.success m.len.toNat m.bytes) s7 ∧
      exec .decrypt s3 = .next u ∧ s3.Answered (Response.success m.len.toNat []) u ∧
      exec .getPt u = .next v ∧ u.Answered (Response.success m.len.toNat m.bytes) v

/-! ## The functions -/

/-- R100: pad appends n bytes, each of value n, with n = 32 - |s| mod 32 and 1 <= n <= 32. -/
def Obligations.PadAppendsItsCount : Prop :=
  ∀ s : List Byte, ∃ n : Nat, n = 32 - s.length % 32 ∧ 1 ≤ n ∧ n ≤ 32 ∧
    (BitVec.ofNat 8 n : Byte).toNat = n ∧ pad s = s ++ List.replicate n (BitVec.ofNat 8 n)

/-- R101 a, d, f ([derived: …]): the padded length is 32 * (|s| div 32 + 1), and every appended byte is 0x01 to 0x20 and
equals their number. -/
def Obligations.PaddedLengthIsTheNextMultiple : Prop :=
  ∀ s : List Byte, (pad s).length = 32 * (s.length / 32 + 1) ∧
    ∀ k, s.length ≤ k → k < (pad s).length → ∃ b : Byte, (pad s)[k]? = some b ∧
      b.toNat = (pad s).length - s.length ∧ 0x01 ≤ b.toNat ∧ b.toNat ≤ 0x20

/-- R102, R103 a: unpad accepts a sequence exactly when it is m followed by p bytes of value p with 1 <= p <= 32, and then
gives m; the empty sequence is rejected. -/
def Obligations.UnpadAcceptsExactlyWellPaddedSequences : Prop :=
  unpad [] = none ∧
  ∀ s m : List Byte, unpad s = some m ↔
    ∃ p : Nat, 1 ≤ p ∧ p ≤ 32 ∧ s = m ++ List.replicate p (BitVec.ofNat 8 p)

/-- R104 ([derived: …]): unpad inverts pad. -/
def Obligations.UnpadInvertsPad : Prop := ∀ s : List Byte, unpad (pad s) = some s

/-- R120: `c[k] = a[k] XOR b[k]` for every k from 0 to 31. -/
def Obligations.XorActsIndexByIndex : Prop :=
  ∀ (a b : Block) (k : Nat), k < 32 → ∃ x y : Byte,
    a.val[k]? = some x ∧ b.val[k]? = some y ∧ (xor32 a b).val[k]? = some (x ^^^ y)

/-- R122 in the closed form of R123 ([derived: …]): the byte that ends at (row r, column c) started at (row (r + 2) mod 4,
column 7 - c), that is `perm(b)[j] = b[j ^ 0x17]`. -/
def Obligations.PermMovesByteToItsMirror : Prop :=
  ∀ b : Block,
    (∀ r c : Nat, r < 4 → c < 8 → (perm b).val[c + 8 * r]? = b.val[(7 - c) + 8 * ((r + 2) % 4)]?) ∧
    ∀ j : Nat, j < 32 → (perm b).val[j]? = b.val[j ^^^ 0x17]?

/-- R124: "for all 32-byte blocks `b`, `P(P(b)) == b`". -/
def Obligations.PermIsAnInvolution : Prop := ∀ b : Block, perm (perm b) = b

/-- R126 ([derived: …]): perm commutes with XOR. -/
def Obligations.PermCommutesWithXor : Prop := ∀ a b : Block, perm (xor32 a b) = xor32 (perm a) (perm b)

/-- R141, R142, R143, R144 ([derived: …]): decrypting the encryption of a sequence of blocks, from the same keyround, gives the
blocks back and leaves the same keyround. -/
def Obligations.DecryptingBlocksUndoesEncryptingThem : Prop :=
  ∀ (k : Block) (bs : List Block), decBlocks k (encBlocks k bs).1 = (bs, (encBlocks k bs).2)

/-- The closed forms of R145 ([derived: …]): ciphertext block i is perm of the running XOR of keyround_0 and blocks 0 to i;
plaintext block 0 is perm(C_0) XOR keyround_0, and plaintext block i + 1 is perm(C_(i+1)) XOR perm(C_i). -/
def Obligations.ChainingClosedForms : Prop :=
  (∀ (k : Block) (bs : List Block) (i : Nat), i < bs.length →
    (encBlocks k bs).1[i]? = some (perm ((bs.take (i + 1)).foldl xor32 k))) ∧
  (∀ (k c : Block) (cs : List Block), (decBlocks k (c :: cs)).1[0]? = some (xor32 (perm c) k)) ∧
  (∀ (k : Block) (cs : List Block) (i : Nat) (c d : Block), cs[i]? = some c → cs[i + 1]? = some d →
    (decBlocks k cs).1[i + 1]? = some (xor32 (perm d) (perm c)))

/-- R51, R54: a buffer has length div 32 blocks, and block i is what MemRead(32*i, 32) gives; reads beyond the length give
nothing (R24). -/
def Obligations.BlocksAreTheAlignedReads : Prop :=
  ∀ m : Memory, m.blocks.length = m.length / 32 ∧
    (∀ i < m.length / 32, ∃ b : Block, m.blocks[i]? = some b ∧ m.read? (32 * i) 32 = some b.val ∧
      ∀ k < 32, m.byteAt? (32 * i + k) = b.val[k]?) ∧
    (∀ k, m.length ≤ k → m.byteAt? k = none) ∧ ∀ a n, m.length < a + n → m.read? a n = none

/-- The worked example of R147, with the bytes of R128 ([derived: …]). -/
def Obligations.WorkedChainingExample : Prop :=
  ∀ b : Block, b.val = (List.range 32).map (BitVec.ofNat 8) →
    (encBlock Block.zero b).2 = b ∧
    (encBlock Block.zero b).1.val =
      [0x17, 0x16, 0x15, 0x14, 0x13, 0x12, 0x11, 0x10, 0x1F, 0x1E, 0x1D, 0x1C, 0x1B, 0x1A, 0x19, 0x18,
       0x07, 0x06, 0x05, 0x04, 0x03, 0x02, 0x01, 0x00, 0x0F, 0x0E, 0x0D, 0x0C, 0x0B, 0x0A, 0x09, 0x08]

/-! ## The whole machine -/

/-- R32 ([derived: …]), R21 to R25: which commands write which field; every other command leaves it, and no command changes
the configuration or the host's pending moves. -/
def Obligations.OnlyTheNamedCommandsWriteEachField : Prop :=
  ∀ (i : Instr) (s t : State), exec i s = .next t →
    t.cfg = s.cfg ∧ t.inbox = s.inbox ∧
    (i.opc ∉ [0x01, 0x02] → s.ctx.KeepsKey t.ctx) ∧
    (i.opc ∉ [0x01, 0x03] → s.ctx.KeepsIv t.ctx) ∧
    (i.opc ∉ [0x01, 0x04, 0x07] → s.ctx.KeepsPt t.ctx) ∧
    (i.opc ∉ [0x01, 0x05, 0x06] → s.ctx.KeepsCt t.ctx) ∧
    (i.opc ∉ [0x01, 0x06, 0x07] → s.ctx.KeepsKeyround t.ctx)

/-- R27: a flag that is set is cleared only by INIT and by reset, and then all four are 0. -/
def Obligations.FlagsAreClearedOnlyByInitAndReset : Prop :=
  ∀ s t : State, step s = .next t →
    ((s.ctx.keySet = true ∧ t.ctx.keySet = false) ∨ (s.ctx.ivSet = true ∧ t.ctx.ivSet = false) ∨
      (s.ctx.ptSet = true ∧ t.ctx.ptSet = false) ∨ (s.ctx.ctSet = true ∧ t.ctx.ctSet = false)) →
    t.ctx.flags = 0x00 ∧
    ((∃ rest, s.inbox = .reset :: rest) ∨ (∃ c rest, s.inbox = .resetDuring c :: rest) ∨
      ∃ c rest, s.inbox = .command c :: rest ∧ decode c = .legal .init)

/-- R185: two different setters may be given in either order: the context comes out the same. -/
def Obligations.SettersAreIndependent : Prop :=
  ∀ (i j : Instr) (s : State), 0x02 ≤ i.opc.toNat → i.opc.toNat ≤ 0x05 → 0x02 ≤ j.opc.toNat → j.opc.toNat ≤ 0x05 →
    i.opc ≠ j.opc →
    ∃ a b c d, exec i s = .next a ∧ exec j a = .next b ∧ exec j s = .next c ∧ exec i c = .next d ∧
      b.ctx.KeepsAll d.ctx

/-- R26, R183, R184, R190, R191: after a successful SET_PT (SET_CT), GET_PT (GET_CT) answers exactly the payload that was set:
no byte of an earlier value can be read. -/
def Obligations.AGetAfterASetReturnsThePayload : Prop :=
  ∀ (pl : Payload) (s t : State),
    (exec (.setPt pl) s = .next t → s.Answered (Response.success 0 []) t →
      ∃ u, exec .getPt t = .next u ∧ t.Answered (Response.success pl.len.toNat pl.bytes) u) ∧
    (exec (.setCt pl) s = .next t → s.Answered (Response.success 0 []) t →
      ∃ u, exec .getCt t = .next u ∧ t.Answered (Response.success pl.len.toNat pl.bytes) u)

/-- R35 ([derived: …]): two states that differ only in KEYROUND or in the bytes of an unset KEY or IV give the same responses
to every sequence of host moves, over runs of any length, and stay so related. -/
def Obligations.KeyroundAndUnsetKeysAreNeverObserved : Prop :=
  ∀ (n : Nat) (s s' : State), s.SameToHost s' →
    ∃ t t' : State, Host.Core.run Sys2Proof.core n s = .next t ∧ Host.Core.run Sys2Proof.core n s' = .next t' ∧
      t'.outbox = t.outbox ∧ t.SameToHost t'
end

