-- ==== Sys2Proof/Laws/State.lean ====
section
/-! SUPPORT. One lemma per field per update of the context and of the state, each true by rfl, so that no later proof unfolds
a record update. -/

namespace Sys2Proof.Machine

section Updates
variable (c : Context) (b : Block) (m : Memory)

@[simp] theorem Context.putKey_key : (c.putKey b).key = b := rfl
@[simp] theorem Context.putKey_keySet : (c.putKey b).keySet = true := rfl
@[simp] theorem Context.putKey_iv : (c.putKey b).iv = c.iv := rfl
@[simp] theorem Context.putKey_ivSet : (c.putKey b).ivSet = c.ivSet := rfl
@[simp] theorem Context.putKey_keyround : (c.putKey b).keyround = c.keyround := rfl
@[simp] theorem Context.putKey_pt : (c.putKey b).pt = c.pt := rfl
@[simp] theorem Context.putKey_ptSet : (c.putKey b).ptSet = c.ptSet := rfl
@[simp] theorem Context.putKey_ct : (c.putKey b).ct = c.ct := rfl
@[simp] theorem Context.putKey_ctSet : (c.putKey b).ctSet = c.ctSet := rfl

@[simp] theorem Context.putIv_key : (c.putIv b).key = c.key := rfl
@[simp] theorem Context.putIv_keySet : (c.putIv b).keySet = c.keySet := rfl
@[simp] theorem Context.putIv_iv : (c.putIv b).iv = b := rfl
@[simp] theorem Context.putIv_ivSet : (c.putIv b).ivSet = true := rfl
@[simp] theorem Context.putIv_keyround : (c.putIv b).keyround = c.keyround := rfl
@[simp] theorem Context.putIv_pt : (c.putIv b).pt = c.pt := rfl
@[simp] theorem Context.putIv_ptSet : (c.putIv b).ptSet = c.ptSet := rfl
@[simp] theorem Context.putIv_ct : (c.putIv b).ct = c.ct := rfl
@[simp] theorem Context.putIv_ctSet : (c.putIv b).ctSet = c.ctSet := rfl

@[simp] theorem Context.putPt_key : (c.putPt m).key = c.key := rfl
@[simp] theorem Context.putPt_keySet : (c.putPt m).keySet = c.keySet := rfl
@[simp] theorem Context.putPt_iv : (c.putPt m).iv = c.iv := rfl
@[simp] theorem Context.putPt_ivSet : (c.putPt m).ivSet = c.ivSet := rfl
@[simp] theorem Context.putPt_keyround : (c.putPt m).keyround = c.keyround := rfl
@[simp] theorem Context.putPt_pt : (c.putPt m).pt = m := rfl
@[simp] theorem Context.putPt_ptSet : (c.putPt m).ptSet = true := rfl
@[simp] theorem Context.putPt_ct : (c.putPt m).ct = c.ct := rfl
@[simp] theorem Context.putPt_ctSet : (c.putPt m).ctSet = c.ctSet := rfl

@[simp] theorem Context.putCt_key : (c.putCt m).key = c.key := rfl
@[simp] theorem Context.putCt_keySet : (c.putCt m).keySet = c.keySet := rfl
@[simp] theorem Context.putCt_iv : (c.putCt m).iv = c.iv := rfl
@[simp] theorem Context.putCt_ivSet : (c.putCt m).ivSet = c.ivSet := rfl
@[simp] theorem Context.putCt_keyround : (c.putCt m).keyround = c.keyround := rfl
@[simp] theorem Context.putCt_pt : (c.putCt m).pt = c.pt := rfl
@[simp] theorem Context.putCt_ptSet : (c.putCt m).ptSet = c.ptSet := rfl
@[simp] theorem Context.putCt_ct : (c.putCt m).ct = m := rfl
@[simp] theorem Context.putCt_ctSet : (c.putCt m).ctSet = true := rfl

@[simp] theorem Context.putKeyround_key : (c.putKeyround b).key = c.key := rfl
@[simp] theorem Context.putKeyround_keySet : (c.putKeyround b).keySet = c.keySet := rfl
@[simp] theorem Context.putKeyround_iv : (c.putKeyround b).iv = c.iv := rfl
@[simp] theorem Context.putKeyround_ivSet : (c.putKeyround b).ivSet = c.ivSet := rfl
@[simp] theorem Context.putKeyround_keyround : (c.putKeyround b).keyround = b := rfl
@[simp] theorem Context.putKeyround_pt : (c.putKeyround b).pt = c.pt := rfl
@[simp] theorem Context.putKeyround_ptSet : (c.putKeyround b).ptSet = c.ptSet := rfl
@[simp] theorem Context.putKeyround_ct : (c.putKeyround b).ct = c.ct := rfl
@[simp] theorem Context.putKeyround_ctSet : (c.putKeyround b).ctSet = c.ctSet := rfl

@[simp] theorem Context.empty_key : Context.empty.key = Block.zero := rfl
@[simp] theorem Context.empty_keySet : Context.empty.keySet = false := rfl
@[simp] theorem Context.empty_iv : Context.empty.iv = Block.zero := rfl
@[simp] theorem Context.empty_ivSet : Context.empty.ivSet = false := rfl
@[simp] theorem Context.empty_keyround : Context.empty.keyround = Block.zero := rfl
@[simp] theorem Context.empty_pt : Context.empty.pt = [] := rfl
@[simp] theorem Context.empty_ptSet : Context.empty.ptSet = false := rfl
@[simp] theorem Context.empty_ct : Context.empty.ct = [] := rfl
@[simp] theorem Context.empty_ctSet : Context.empty.ctSet = false := rfl

variable (s : State) (r : Response) (x : HostMove)

@[simp] theorem State.withCtx_cfg : (s.withCtx c).cfg = s.cfg := rfl
@[simp] theorem State.withCtx_ctx : (s.withCtx c).ctx = c := rfl
@[simp] theorem State.withCtx_inbox : (s.withCtx c).inbox = s.inbox := rfl
@[simp] theorem State.withCtx_outbox : (s.withCtx c).outbox = s.outbox := rfl
@[simp] theorem State.give_cfg : (s.give r).cfg = s.cfg := rfl
@[simp] theorem State.give_ctx : (s.give r).ctx = s.ctx := rfl
@[simp] theorem State.give_inbox : (s.give r).inbox = s.inbox := rfl
@[simp] theorem State.give_outbox : (s.give r).outbox = s.outbox ++ [r] := rfl
@[simp] theorem State.issue_cfg : (s.issue x).cfg = s.cfg := rfl
@[simp] theorem State.issue_ctx : (s.issue x).ctx = s.ctx := rfl
@[simp] theorem State.issue_inbox : (s.issue x).inbox = s.inbox ++ [x] := rfl
@[simp] theorem State.issue_outbox : (s.issue x).outbox = s.outbox := rfl

end Updates

@[simp] theorem Context.ptLen_eq (c : Context) : c.ptLen = c.pt.length := rfl
@[simp] theorem Context.ctLen_eq (c : Context) : c.ctLen = c.ct.length := rfl

end Sys2Proof.Machine
end

