-- ==== Sys2Proof/Laws/Ops.lean ====
section
/-! SUPPORT. What each shared operation can do, said once: ending a command, the operands, the host's next move, the
precondition; and that every memory operation keeps the form of a buffer. -/

namespace Sys2Proof

/-- The addresses of a buffer's cells rise strictly: its list form is canonical by construction. -/
theorem Memory.cells_rising (m : Memory) : m.cells.Pairwise fun a b => a.1 < b.1 := by
  have h : ∀ (l : List Byte) (n : Nat),
      ((l.zipIdx n).map fun p => (p.2, p.1)).Pairwise (fun a b : Host.Cell => a.1 < b.1) := by
    intro l
    induction l with
    | nil => intro n; simp
    | cons x xs ih =>
      intro n
      simp only [List.zipIdx_cons, List.map_cons, List.pairwise_cons, List.mem_map]
      refine ⟨?_, ih _⟩
      rintro _ ⟨p, hp, rfl⟩
      have := List.le_snd_of_mem_zipIdx hp
      simp only
      omega
  exact h m 0

/-- The cells of a buffer determine it: equal memories are equal data, and the other way round. -/
theorem Memory.cells_bytes (m : Memory) : m.cells.map (·.2) = m := by
  simp only [Memory.cells, List.map_map]
  exact List.zipIdx_map_fst 0 m

theorem Memory.wf_iff {cfg : Config} {m : Memory} : m.wf cfg = true ↔ m.length ≤ cfg.bufCap := by
  simp [Memory.wf]

/-- Emptying a buffer keeps its form. -/
theorem Memory.wf_nil (cfg : Config) : Memory.wf cfg [] = true := by simp [Memory.wf]

/-- A buffer no longer than a well-formed one is well formed. -/
theorem Memory.wf_of_le {cfg : Config} {m m' : Memory} (h : m.wf cfg = true) (hl : m'.length ≤ m.length) :
    m'.wf cfg = true := by
  rw [Memory.wf_iff] at *; omega

theorem Memory.same_refl (m : Memory) : m.Same m := ⟨rfl, fun _ => rfl⟩

/-- Reading as before is being as before. -/
theorem Memory.same_iff {m m' : Memory} : m.Same m' ↔ m' = m :=
  ⟨fun h => List.ext_getElem? h.2, fun h => h ▸ Memory.same_refl _⟩

/-- `n` blocks are there to take whenever 32 * n bytes are. -/
theorem length_takeBlocks (n : Nat) (l : List Byte) (h : 32 * n ≤ l.length) : (takeBlocks n l).length = n := by
  induction n generalizing l with
  | zero => rfl
  | succ n ih =>
    have h32 : 32 ≤ l.length := by omega
    simp only [takeBlocks, h32, dif_pos, List.length_cons]
    rw [ih _ (by simp only [List.length_drop]; omega)]

/-- A buffer has length div 32 blocks. -/
theorem Memory.length_blocks (m : Memory) : m.blocks.length = m.length / 32 :=
  length_takeBlocks _ _ (by omega)

/-- The blocks of a byte sequence of whole blocks are its bytes. -/
theorem ofBlocks_takeBlocks (n : Nat) (l : List Byte) (h : l.length = 32 * n) :
    Memory.ofBlocks (takeBlocks n l) = l := by
  induction n generalizing l with
  | zero => rw [List.eq_nil_of_length_eq_zero (l := l) (by omega)]; rfl
  | succ n ih =>
    have h32 : 32 ≤ l.length := by omega
    have := ih (l.drop 32) (by simp only [List.length_drop]; omega)
    simp only [Memory.ofBlocks] at this
    simp [takeBlocks, h32, Memory.ofBlocks, this]

@[simp] theorem Memory.ofBlocks_nil : Memory.ofBlocks [] = [] := rfl

@[simp] theorem Memory.ofBlocks_cons (b : Block) (bs : List Block) :
    Memory.ofBlocks (b :: bs) = b.val ++ Memory.ofBlocks bs := rfl

/-- Assembled blocks are 32 bytes each. -/
@[simp] theorem Memory.length_ofBlocks (bs : List Block) : (Memory.ofBlocks bs).length = 32 * bs.length := by
  induction bs with
  | nil => rfl
  | cons b bs ih => rw [Memory.ofBlocks_cons, List.length_append, ih, b.property, List.length_cons]; omega

/-- Assembling as many blocks as a buffer has keeps the form of the buffer. -/
theorem Memory.wf_ofBlocks {cfg : Config} {m : Memory} {bs : List Block} (h : m.wf cfg = true)
    (hl : bs.length = m.blocks.length) : (Memory.ofBlocks bs).wf cfg = true :=
  Memory.wf_of_le h (by rw [Memory.length_ofBlocks, hl, Memory.length_blocks]; omega)

/-- Taking the blocks of assembled blocks gives them back. -/
theorem takeBlocks_ofBlocks (bs : List Block) : takeBlocks bs.length (Memory.ofBlocks bs) = bs := by
  induction bs with
  | nil => rfl
  | cons b bs ih =>
    have hl : 32 ≤ (Memory.ofBlocks (b :: bs)).length := by
      rw [Memory.length_ofBlocks, List.length_cons]; omega
    simp only [List.length_cons, takeBlocks, hl, dif_pos]
    congr 1
    · apply Subtype.ext; simp [b.property]
    · rw [Memory.ofBlocks_cons, List.drop_left' b.property]; exact ih

/-- The blocks of assembled blocks are those blocks. -/
@[simp] theorem Memory.blocks_ofBlocks (bs : List Block) : (Memory.ofBlocks bs).blocks = bs := by
  have h : (Memory.ofBlocks bs).length / 32 = bs.length := by rw [Memory.length_ofBlocks]; omega
  rw [Memory.blocks, h, takeBlocks_ofBlocks]

namespace Machine

/-- All that `respond` does. -/
theorem respond_eq (n : Nat) (d : List Byte) (s : State) : respond n d s = .next (s.give (Response.success n d)) := rfl

/-- All that `raise` does. -/
theorem raise_eq (e : Error) (s : State) : raise e s = .next (s.give (Response.failure e)) := rfl

/-- Giving a response answers it and leaves the context alone. -/
theorem State.give_answered (s : State) (r : Response) : s.Answered r (s.give r) := ⟨rfl, rfl, rfl⟩

/-- Changing the context and giving a response answers it. -/
theorem State.withCtx_give_answered (s : State) (c : Context) (r : Response) :
    s.Answered r ((s.withCtx c).give r) := ⟨rfl, rfl, rfl⟩

/-- A 32-byte payload is a block, its own bytes. -/
theorem blockOperand_ok {pl : Payload} (h : pl.len.toNat = 32) :
    blockOperand pl = .ok ⟨pl.bytes, pl.bytes_length.trans h⟩ := by
  simp [blockOperand, h]

/-- Any other payload is InvalidLength. -/
theorem blockOperand_error {pl : Payload} (h : pl.len.toNat ≠ 32) : blockOperand pl = .error .invalidLength := by
  simp [blockOperand, h]

/-- The three outcomes of a buffer operand. -/
theorem bufferOperand_cases (cfg : Config) (pl : Payload) :
    (pl.len.toNat < 32 ∧ bufferOperand cfg pl = .error .tooShort) ∨
    (32 ≤ pl.len.toNat ∧ cfg.bufCap < pl.len.toNat ∧ bufferOperand cfg pl = .error .outOfMemory) ∨
    (32 ≤ pl.len.toNat ∧ pl.len.toNat ≤ cfg.bufCap ∧ bufferOperand cfg pl = .ok pl.bytes) := by
  unfold bufferOperand
  by_cases h1 : pl.len.toNat < 32
  · exact .inl ⟨h1, by simp [h1]⟩
  · by_cases h2 : pl.len.toNat > cfg.bufCap
    · exact .inr (.inl ⟨by omega, h2, by simp [h1, h2]⟩)
    · exact .inr (.inr ⟨by omega, by omega, by simp [h1, h2]⟩)

/-- A buffer operand that is accepted has the form of a buffer. -/
theorem bufferOperand_wf {cfg : Config} {pl : Payload} {m : Memory} (h : bufferOperand cfg pl = .ok m) :
    m.wf cfg = true ∧ 32 ≤ m.length ∧ m = pl.bytes := by
  rcases bufferOperand_cases cfg pl with ⟨_, h'⟩ | ⟨_, _, h'⟩ | ⟨h1, h2, h'⟩
  · simp [h'] at h
  · simp [h'] at h
  · rw [h'] at h
    cases h
    rw [Memory.wf_iff, pl.bytes_length]
    exact ⟨h2, h1, rfl⟩

/-- The precondition of ENCRYPT and DECRYPT, condition by condition. -/
theorem Context.ready_iff {c : Context} {isSet : Bool} {len : Nat} :
    c.ready isSet len = true ↔
      c.keySet = true ∧ c.ivSet = true ∧ isSet = true ∧ 0 < len ∧ len % 32 = 0 := by
  simp [Context.ready, and_assoc]

/-- What the host's next move can be, and the state with it taken. -/
theorem fetch_cases (s : State) :
    (s.inbox = [] ∧ fetch s = (.nothing, s)) ∨
    (∃ rest, s.inbox = .reset :: rest ∧ fetch s = (.reset, { s with inbox := rest })) ∨
    (∃ c rest, s.inbox = .resetDuring c :: rest ∧ fetch s = (.reset, { s with inbox := rest })) ∨
    (∃ c rest i, s.inbox = .command c :: rest ∧ decode c = .legal i ∧
      fetch s = (.instr i, { s with inbox := rest })) ∨
    (∃ c rest why, s.inbox = .command c :: rest ∧ decode c = .illegal why ∧
      fetch s = (.illegal, { s with inbox := rest })) := by
  rcases h : s.inbox with _ | ⟨m, rest⟩
  · exact .inl ⟨rfl, by simp [fetch, h]⟩
  · cases m with
    | reset => exact .inr (.inl ⟨rest, rfl, by simp [fetch, h]⟩)
    | resetDuring c => exact .inr (.inr (.inl ⟨c, rest, rfl, by simp [fetch, h]⟩))
    | command c =>
      rcases hd : decode c with i | why
      · exact .inr (.inr (.inr (.inl ⟨c, rest, i, rfl, hd, by simp [fetch, h, hd]⟩)))
      · exact .inr (.inr (.inr (.inr ⟨c, rest, why, rfl, hd, by simp [fetch, h, hd]⟩)))

end Machine

end Sys2Proof
end

