-- ==== Sys2Proof/Laws/Cipher.lean ====
section
/-! SUPPORT. Equations and lengths of the block loop, the padding codec and the permutation network; each meaning's cases,
said once. -/

namespace Sys2Proof.Machine

@[simp] theorem blockLoop_nil (f : Block → Block → Block × Block) (k : Block) : blockLoop f k [] = ([], k) := rfl

@[simp] theorem blockLoop_cons (f : Block → Block → Block × Block) (k b : Block) (bs : List Block) :
    blockLoop f k (b :: bs) = ((f k b).1 :: (blockLoop f (f k b).2 bs).1, (blockLoop f (f k b).2 bs).2) := rfl

/-- The block loop emits one block per block (R162). -/
@[simp] theorem length_blockLoop (f : Block → Block → Block × Block) (k : Block) (bs : List Block) :
    (blockLoop f k bs).1.length = bs.length := by
  induction bs generalizing k with
  | nil => rfl
  | cons b bs ih => simp [ih]

@[simp] theorem length_encBlocks (k : Block) (bs : List Block) : (encBlocks k bs).1.length = bs.length :=
  length_blockLoop _ _ _

@[simp] theorem length_decBlocks (k : Block) (bs : List Block) : (decBlocks k bs).1.length = bs.length :=
  length_blockLoop _ _ _

/-- The bytes of xor32. -/
theorem xor32_val (a b : Block) : (xor32 a b).val = List.zipWith (· ^^^ ·) a.val b.val := rfl

/-- The bytes of perm: rows 2, 3, 0, 1 of the block, each reversed (R122). -/
theorem perm_val (b : Block) :
    (perm b).val = ((b.val.drop 16).take 8).reverse ++ ((b.val.drop 24).take 8).reverse ++
      (b.val.take 8).reverse ++ ((b.val.drop 8).take 8).reverse := rfl

theorem padCount_pos (n : Nat) : 1 ≤ padCount n := by unfold padCount; omega

theorem padCount_le (n : Nat) : padCount n ≤ 32 := by unfold padCount; omega

/-- The length of a padded sequence. -/
theorem length_pad (s : List Byte) : (pad s).length = s.length + padCount s.length := by
  simp [pad]

/-- What `unpad` can answer: the sequence cut by its last byte, which passed the checks. -/
theorem unpad_some {s m : List Byte} (h : unpad s = some m) :
    ∃ p, s.getLast? = some p ∧ paddingOk s p = true ∧ m = s.take (s.length - p.toNat) := by
  unfold unpad at h
  split at h
  · cases h
  · next p hp =>
    split at h
    · next hok => cases h; exact ⟨p, hp, hok, rfl⟩
    · cases h

/-- Unpadding never lengthens a buffer, so it keeps its form. -/
theorem Memory.wf_unpad {cfg : Config} {s m : List Byte} (hs : Memory.wf cfg s = true) (h : unpad s = some m) :
    Memory.wf cfg m = true := by
  obtain ⟨p, -, -, rfl⟩ := unpad_some h
  exact Memory.wf_of_le hs (by simp)

/-- ENCRYPT where its precondition holds. -/
theorem execEncrypt_ready {s : State} (h : s.ctx.ready s.ctx.ptSet s.ctx.ptLen = true) :
    execEncrypt s = .next ((s.withCtx ((s.ctx.putKeyround (encBlocks (seed s.ctx) s.ctx.pt.blocks).2).putCt
      (Memory.ofBlocks (encBlocks (seed s.ctx) s.ctx.pt.blocks).1))).give
        (Response.success (32 * (s.ctx.pt.length / 32)) [])) := by
  rw [execEncrypt, if_pos h]; simp [respond, Response.success, Memory.length_blocks]

/-- ENCRYPT where its precondition fails. -/
theorem execEncrypt_not_ready {s : State} (h : s.ctx.ready s.ctx.ptSet s.ctx.ptLen = false) :
    execEncrypt s = .next (s.give (Response.failure .missingInput)) := by
  rw [execEncrypt, if_neg (by simp only [h]; decide)]; rfl

/-- DECRYPT where its precondition holds and the recovered bytes unpad. -/
theorem execDecrypt_ready_ok {s : State} {m : Memory} (h : s.ctx.ready s.ctx.ctSet s.ctx.ctLen = true)
    (hm : unpad s.ctx.recovered = some m) :
    execDecrypt s = .next ((s.withCtx ((s.ctx.putKeyround (decBlocks (seed s.ctx) s.ctx.ct.blocks).2).putPt m)).give
      (Response.success m.length [])) := by
  simp only [Context.recovered] at hm
  rw [execDecrypt, if_pos h]; simp [hm, respond, Response.success]

/-- DECRYPT where its precondition holds and unpad rejects. -/
theorem execDecrypt_ready_corrupt {s : State} (h : s.ctx.ready s.ctx.ctSet s.ctx.ctLen = true)
    (hm : unpad s.ctx.recovered = none) :
    execDecrypt s = .next ((s.withCtx (s.ctx.putKeyround (decBlocks (seed s.ctx) s.ctx.ct.blocks).2)).give
      (Response.failure .corruptPadding)) := by
  simp only [Context.recovered] at hm
  rw [execDecrypt, if_pos h]; simp [hm, raise, Response.failure]

/-- DECRYPT where its precondition fails. -/
theorem execDecrypt_not_ready {s : State} (h : s.ctx.ready s.ctx.ctSet s.ctx.ctLen = false) :
    execDecrypt s = .next (s.give (Response.failure .missingInput)) := by
  rw [execDecrypt, if_neg (by simp only [h]; decide)]; rfl

/-- PAD, both ways. -/
theorem execPad_cases (pl : Payload) (s : State) :
    (s.cfg.bufCap < pl.len.toNat + padCount pl.len.toNat ∧
      execPad pl s = .next (s.give (Response.failure .outOfMemory))) ∨
    (pl.len.toNat + padCount pl.len.toNat ≤ s.cfg.bufCap ∧
      execPad pl s = .next (s.give (Response.success (pl.len.toNat + padCount pl.len.toNat) (pad pl.bytes)))) := by
  unfold execPad
  by_cases h : pl.len.toNat + padCount pl.len.toNat > s.cfg.bufCap
  · exact .inl ⟨h, by simp [h, raise, Response.failure]⟩
  · exact .inr ⟨by omega, by simp [h, respond, Response.success]⟩

end Sys2Proof.Machine
end

