-- ==== Sys2Proof/Laws/Context.lean ====
section
/-! SUPPORT. Each context command's cases, said once, and what it is for a context to be unchanged. -/

namespace Sys2Proof.Machine

/-- A context whose every field is unchanged is the same context. -/
theorem Context.keepsAll_iff {c d : Context} : c.KeepsAll d ↔ d = c := by
  constructor
  · rintro ⟨⟨hk, hks⟩, ⟨hi, his⟩, hr, ⟨hp, hps⟩, ⟨hc, hcs⟩⟩
    rw [Memory.same_iff] at hp hc
    cases c
    cases d
    simp_all [Context.KeepsKeyround]
  · rintro rfl
    exact ⟨⟨rfl, rfl⟩, ⟨rfl, rfl⟩, rfl, ⟨Memory.same_refl _, rfl⟩, ⟨Memory.same_refl _, rfl⟩⟩

/-- A context keeps all of itself. -/
theorem Context.keepsAll_refl (c : Context) : c.KeepsAll c := Context.keepsAll_iff.2 rfl

/-- SET_KEY with a 32-byte payload. -/
theorem execSetKey_ok {pl : Payload} {s : State} (h : pl.len.toNat = 32) :
    execSetKey pl s =
      .next ((s.withCtx (s.ctx.putKey ⟨pl.bytes, pl.bytes_length.trans h⟩)).give (Response.success 0 [])) := by
  rw [execSetKey, blockOperand_ok h]; rfl

/-- SET_KEY with any other payload. -/
theorem execSetKey_error {pl : Payload} {s : State} (h : pl.len.toNat ≠ 32) :
    execSetKey pl s = .next (s.give (Response.failure .invalidLength)) := by
  rw [execSetKey, blockOperand_error h]; rfl

/-- SET_IV with a 32-byte payload. -/
theorem execSetIv_ok {pl : Payload} {s : State} (h : pl.len.toNat = 32) :
    execSetIv pl s =
      .next ((s.withCtx (s.ctx.putIv ⟨pl.bytes, pl.bytes_length.trans h⟩)).give (Response.success 0 [])) := by
  rw [execSetIv, blockOperand_ok h]; rfl

/-- SET_IV with any other payload. -/
theorem execSetIv_error {pl : Payload} {s : State} (h : pl.len.toNat ≠ 32) :
    execSetIv pl s = .next (s.give (Response.failure .invalidLength)) := by
  rw [execSetIv, blockOperand_error h]; rfl

/-- The three outcomes of SET_PT. -/
theorem execSetPt_cases (pl : Payload) (s : State) :
    (pl.len.toNat < 32 ∧ execSetPt pl s = .next (s.give (Response.failure .tooShort))) ∨
    (32 ≤ pl.len.toNat ∧ s.cfg.bufCap < pl.len.toNat ∧
      execSetPt pl s = .next (s.give (Response.failure .outOfMemory))) ∨
    (32 ≤ pl.len.toNat ∧ pl.len.toNat ≤ s.cfg.bufCap ∧
      execSetPt pl s = .next ((s.withCtx (s.ctx.putPt pl.bytes)).give (Response.success 0 []))) := by
  unfold execSetPt
  rcases bufferOperand_cases s.cfg pl with ⟨h1, h⟩ | ⟨h1, h2, h⟩ | ⟨h1, h2, h⟩ <;> rw [h]
  · exact .inl ⟨h1, rfl⟩
  · exact .inr (.inl ⟨h1, h2, rfl⟩)
  · exact .inr (.inr ⟨h1, h2, rfl⟩)

/-- The three outcomes of SET_CT. -/
theorem execSetCt_cases (pl : Payload) (s : State) :
    (pl.len.toNat < 32 ∧ execSetCt pl s = .next (s.give (Response.failure .tooShort))) ∨
    (32 ≤ pl.len.toNat ∧ s.cfg.bufCap < pl.len.toNat ∧
      execSetCt pl s = .next (s.give (Response.failure .outOfMemory))) ∨
    (32 ≤ pl.len.toNat ∧ pl.len.toNat ≤ s.cfg.bufCap ∧
      execSetCt pl s = .next ((s.withCtx (s.ctx.putCt pl.bytes)).give (Response.success 0 []))) := by
  unfold execSetCt
  rcases bufferOperand_cases s.cfg pl with ⟨h1, h⟩ | ⟨h1, h2, h⟩ | ⟨h1, h2, h⟩ <;> rw [h]
  · exact .inl ⟨h1, rfl⟩
  · exact .inr (.inl ⟨h1, h2, rfl⟩)
  · exact .inr (.inr ⟨h1, h2, rfl⟩)

end Sys2Proof.Machine
end

