-- ==== Sys2Proof/Laws/Effect.lean ====
section
/-! SUPPORT. What a command can do, said once: the relation `Effect cfg c i c' r` lists every case of every command (context
`c` before, context `c'` and response `r` after), and `exec` does exactly what it lists. Later proofs split on it instead
of unfolding `exec`. -/

namespace Sys2Proof.Machine

/-- The cases of each command, errors included. -/
inductive Effect (cfg : Config) (c : Context) : Instr → Context → Response → Prop
  | init : Effect cfg c .init Context.empty (.success 0 [])
  | keyOk (pl) (h : pl.len.toNat = 32) :
      Effect cfg c (.setKey pl) (c.putKey ⟨pl.bytes, pl.bytes_length.trans h⟩) (.success 0 [])
  | keyBad (pl) (h : pl.len.toNat ≠ 32) : Effect cfg c (.setKey pl) c (.failure .invalidLength)
  | ivOk (pl) (h : pl.len.toNat = 32) :
      Effect cfg c (.setIv pl) (c.putIv ⟨pl.bytes, pl.bytes_length.trans h⟩) (.success 0 [])
  | ivBad (pl) (h : pl.len.toNat ≠ 32) : Effect cfg c (.setIv pl) c (.failure .invalidLength)
  | ptOk (pl) (h : 32 ≤ pl.len.toNat) (h' : pl.len.toNat ≤ cfg.bufCap) :
      Effect cfg c (.setPt pl) (c.putPt pl.bytes) (.success 0 [])
  | ptShort (pl) (h : pl.len.toNat < 32) : Effect cfg c (.setPt pl) c (.failure .tooShort)
  | ptBig (pl) (h : 32 ≤ pl.len.toNat) (h' : cfg.bufCap < pl.len.toNat) :
      Effect cfg c (.setPt pl) c (.failure .outOfMemory)
  | ctOk (pl) (h : 32 ≤ pl.len.toNat) (h' : pl.len.toNat ≤ cfg.bufCap) :
      Effect cfg c (.setCt pl) (c.putCt pl.bytes) (.success 0 [])
  | ctShort (pl) (h : pl.len.toNat < 32) : Effect cfg c (.setCt pl) c (.failure .tooShort)
  | ctBig (pl) (h : 32 ≤ pl.len.toNat) (h' : cfg.bufCap < pl.len.toNat) :
      Effect cfg c (.setCt pl) c (.failure .outOfMemory)
  | padOk (pl) (h : pl.len.toNat + padCount pl.len.toNat ≤ cfg.bufCap) :
      Effect cfg c (.pad pl) c (.success (pl.len.toNat + padCount pl.len.toNat) (pad pl.bytes))
  | padBig (pl) (h : cfg.bufCap < pl.len.toNat + padCount pl.len.toNat) :
      Effect cfg c (.pad pl) c (.failure .outOfMemory)
  | getPt : Effect cfg c .getPt c (.success c.ptLen c.pt)
  | getCt : Effect cfg c .getCt c (.success c.ctLen c.ct)
  | stat : Effect cfg c .stat c (.success 8 c.statBytes)
  | encBad (h : c.ready c.ptSet c.ptLen = false) : Effect cfg c .encrypt c (.failure .missingInput)
  | encOk (h : c.ready c.ptSet c.ptLen = true) :
      Effect cfg c .encrypt
        ((c.putKeyround (encBlocks (seed c) c.pt.blocks).2).putCt (Memory.ofBlocks (encBlocks (seed c) c.pt.blocks).1))
        (.success (32 * (c.pt.length / 32)) [])
  | decBad (h : c.ready c.ctSet c.ctLen = false) : Effect cfg c .decrypt c (.failure .missingInput)
  | decCorrupt (h : c.ready c.ctSet c.ctLen = true) (hu : unpad c.recovered = none) :
      Effect cfg c .decrypt (c.putKeyround (decBlocks (seed c) c.ct.blocks).2) (.failure .corruptPadding)
  | decOk (m) (h : c.ready c.ctSet c.ctLen = true) (hu : unpad c.recovered = some m) :
      Effect cfg c .decrypt ((c.putKeyround (decBlocks (seed c) c.ct.blocks).2).putPt m) (.success m.length [])

/-- Every command has an effect, and `exec` answers it. -/
theorem exec_effect (i : Instr) (s : State) :
    ∃ c r, Effect s.cfg s.ctx i c r ∧ exec i s = .next ((s.withCtx c).give r) := by
  cases i with
  | init => exact ⟨_, _, .init, rfl⟩
  | setKey pl =>
    by_cases h : pl.len.toNat = 32
    · exact ⟨_, _, .keyOk pl h, execSetKey_ok h⟩
    · exact ⟨s.ctx, _, .keyBad pl h, execSetKey_error h⟩
  | setIv pl =>
    by_cases h : pl.len.toNat = 32
    · exact ⟨_, _, .ivOk pl h, execSetIv_ok h⟩
    · exact ⟨s.ctx, _, .ivBad pl h, execSetIv_error h⟩
  | setPt pl =>
    rcases execSetPt_cases pl s with ⟨a, h⟩ | ⟨a, b, h⟩ | ⟨a, b, h⟩
    · exact ⟨s.ctx, _, .ptShort pl a, h⟩
    · exact ⟨s.ctx, _, .ptBig pl a b, h⟩
    · exact ⟨_, _, .ptOk pl a b, h⟩
  | setCt pl =>
    rcases execSetCt_cases pl s with ⟨a, h⟩ | ⟨a, b, h⟩ | ⟨a, b, h⟩
    · exact ⟨s.ctx, _, .ctShort pl a, h⟩
    · exact ⟨s.ctx, _, .ctBig pl a b, h⟩
    · exact ⟨_, _, .ctOk pl a b, h⟩
  | pad pl =>
    rcases execPad_cases pl s with ⟨a, h⟩ | ⟨a, h⟩
    · exact ⟨s.ctx, _, .padBig pl a, h⟩
    · exact ⟨s.ctx, _, .padOk pl a, h⟩
  | getPt => exact ⟨s.ctx, _, .getPt, rfl⟩
  | getCt => exact ⟨s.ctx, _, .getCt, rfl⟩
  | stat => exact ⟨s.ctx, _, .stat, rfl⟩
  | encrypt =>
    rcases h : s.ctx.ready s.ctx.ptSet s.ctx.ptLen
    · exact ⟨s.ctx, _, .encBad h, execEncrypt_not_ready h⟩
    · exact ⟨_, _, .encOk h, execEncrypt_ready h⟩
  | decrypt =>
    rcases h : s.ctx.ready s.ctx.ctSet s.ctx.ctLen
    · exact ⟨s.ctx, _, .decBad h, execDecrypt_not_ready h⟩
    · rcases hu : unpad s.ctx.recovered
      · exact ⟨_, _, .decCorrupt h hu, execDecrypt_ready_corrupt h hu⟩
      · exact ⟨_, _, .decOk _ h hu, execDecrypt_ready_ok h hu⟩

/-- The effect of a command is one. -/
theorem Effect.unique {cfg : Config} {c c1 c2 : Context} {i : Instr} {r1 r2 : Response} (h1 : Effect cfg c i c1 r1)
    (h2 : Effect cfg c i c2 r2) : c1 = c2 ∧ r1 = r2 := by
  cases h1 <;> cases h2 <;> first | exact ⟨rfl, rfl⟩ | (exfalso; omega) | simp_all

/-- `exec` answers the effect. -/
theorem effect_exec {s : State} {i : Instr} {c : Context} {r : Response} (h : Effect s.cfg s.ctx i c r) :
    exec i s = .next ((s.withCtx c).give r) := by
  obtain ⟨c', r', h', e⟩ := exec_effect i s
  obtain ⟨rfl, rfl⟩ := h.unique h'
  exact e

/-- If `exec` answers a next state, an effect made it. -/
theorem exec_next {s t : State} {i : Instr} (h : exec i s = .next t) :
    ∃ c r, Effect s.cfg s.ctx i c r ∧ t = (s.withCtx c).give r := by
  obtain ⟨c, r, h', e⟩ := exec_effect i s
  rw [e] at h
  cases h
  exact ⟨c, r, h', rfl⟩

/-- The response of a next state is the one that was given. -/
theorem State.Answered.eq {s : State} {c : Context} {r r' : Response}
    (h : s.Answered r' ((s.withCtx c).give r)) : r' = r := by
  have := h.2.2
  simpa using this.symm

end Sys2Proof.Machine
end

