-- ==== Sys2Proof/Laws/Encoding.lean ====
section
/-! SUPPORT. The fields of a command word as remainder and quotient (R71), and the word of its fields; the same of a response word
(R75, R77). -/

namespace Sys2Proof

/-- OPC is the command word modulo 256 (R71). -/
theorem opcField_toNat (w : Word) : (opcField w).toNat = w.toNat % 256 := by
  simp only [opcField, BitVec.extractLsb'_toNat, Nat.shiftRight_eq_div_pow]
  omega

/-- LEN is the command word divided by 256 (R71). -/
theorem lenField_toNat (w : Word) : (lenField w).toNat = w.toNat / 256 := by
  have := w.isLt
  simp only [lenField, BitVec.extractLsb'_toNat, Nat.shiftRight_eq_div_pow]
  omega

/-- A command word is the word of its fields (R71). -/
theorem commandWord_fields (w : Word) : commandWord (lenField w) (opcField w) = w := by
  apply BitVec.eq_of_toNat_eq
  have := w.isLt
  simp only [commandWord, BitVec.toNat_ofNat, opcField_toNat, lenField_toNat]
  omega

/-- The value of the word of a LEN and an opcode (R71). -/
theorem commandWord_toNat (len : BitVec 24) (opc : Byte) :
    (commandWord len opc).toNat = len.toNat * 256 + opc.toNat := by
  have := len.isLt
  have := opc.isLt
  simp only [commandWord, BitVec.toNat_ofNat]
  omega

/-- The value of a response word whose COUNT fits its 24 bits (R75). -/
theorem Machine.Response.word_toNat {r : Machine.Response} (h : r.count < 16777216) :
    r.word.toNat = r.count * 256 + r.status.code.toNat := by
  have := r.status.code.isLt
  simp only [Machine.Response.word, BitVec.toNat_ofNat]
  omega

/-- No two statuses have one code (R77). -/
theorem Machine.Status.code_injective {a b : Machine.Status} (h : a.code = b.code) : a = b := by
  rcases a with _ | (_ | _ | _ | _ | _ | _) <;> rcases b with _ | (_ | _ | _ | _ | _ | _) <;>
    first | rfl | (simp [Machine.Status.code] at h)

/-- A payload of LEN = 0 is the empty payload. -/
theorem Payload.eq_empty {pl : Payload} (h : pl.len = 0) : pl = Payload.empty := by
  obtain ⟨len, bytes, hb⟩ := pl
  subst h
  simp only [Payload.empty, Payload.mk.injEq, true_and]
  exact List.eq_nil_of_length_eq_zero hb

/-- The word of four bytes of a word is that word (R53). -/
theorem wordOfBytes_extract (w : Word) :
    wordOfBytes (w.extractLsb' 0 8) (w.extractLsb' 8 8) (w.extractLsb' 16 8) (w.extractLsb' 24 8) = w := by
  apply BitVec.eq_of_toNat_eq
  have := w.isLt
  simp only [wordOfBytes, BitVec.extractLsb'_toNat, BitVec.toNat_ofNat, Nat.shiftRight_eq_div_pow]
  omega

end Sys2Proof
end

