-- ==== Sys2Proof/Laws/PerInstr.lean ====
section
/-! SUPPORT. Statements for all instructions, made per instruction: the fields of an instruction's command word. -/

namespace Sys2Proof.Laws.WordFields

/-- The command word of an instruction has its opcode in bits 7:0 and its payload's LEN in bits 31:8 (R71). -/
def Statement (i : Instr) : Prop := opcField i.word = i.opc ∧ lenField i.word = i.payload.len

theorem of_word (i : Instr) : Statement i := ⟨opcField_commandWord _ _, lenField_commandWord _ _⟩

theorem init : Statement .init := of_word _
theorem setKey (pl : Payload) : Statement (.setKey pl) := of_word _
theorem setIv (pl : Payload) : Statement (.setIv pl) := of_word _
theorem setPt (pl : Payload) : Statement (.setPt pl) := of_word _
theorem setCt (pl : Payload) : Statement (.setCt pl) := of_word _
theorem encrypt : Statement .encrypt := of_word _
theorem decrypt : Statement .decrypt := of_word _
theorem pad (pl : Payload) : Statement (.pad pl) := of_word _
theorem getPt : Statement .getPt := of_word _
theorem getCt : Statement .getCt := of_word _
theorem stat : Statement .stat := of_word _

end Sys2Proof.Laws.WordFields
end

