-- ==== Sys2Proof/Tests/Slice0.lean ====
section
/-! SUPPORT. Tests of the model: words written out from the spec's encodings, the vectors of 95_test_vectors.md one step at a
time, and a witness for the hypotheses of every statement. -/

namespace Sys2Proof.Tests

open Sys2Proof.Machine

/-! ## Helpers -/

/-- Bytes from numbers. -/
def bytes (ns : List Nat) : List Byte := ns.map (BitVec.ofNat 8)

/-- K1 of 95_test_vectors.md: byte k = k. -/
def k1 : Block := ⟨bytes (List.range 32), by decide⟩

/-- V1 of 95_test_vectors.md: byte k = 0xA0 + k. -/
def v1 : Block := ⟨bytes ((List.range 32).map (0xA0 + ·)), by decide⟩

/-- A constant block. -/
def rep32 (b : Byte) : Block := ⟨List.replicate 32 b, List.length_replicate⟩

/-- M40 of 95_test_vectors.md, "The quick brown fox jumps over the lazy ". -/
def m40 : List Byte := bytes
  [0x54, 0x68, 0x65, 0x20, 0x71, 0x75, 0x69, 0x63, 0x6B, 0x20, 0x62, 0x72, 0x6F, 0x77, 0x6E, 0x20,
   0x66, 0x6F, 0x78, 0x20, 0x6A, 0x75, 0x6D, 0x70, 0x73, 0x20, 0x6F, 0x76, 0x65, 0x72, 0x20, 0x74,
   0x68, 0x65, 0x20, 0x6C, 0x61, 0x7A, 0x79, 0x20]

/-- X_1 of 95_test_vectors.md 2.5, KEYROUND after the two-block ENCRYPT. -/
def x1 : List Byte := bytes
  [0x9C, 0xAD, 0xE5, 0xEC, 0xB0, 0xAF, 0xB0, 0xE3, 0xD3, 0x98, 0xDA, 0xCA, 0xD7, 0xCF, 0xD6, 0x98,
   0xDE, 0xD7, 0xC0, 0x98, 0xD2, 0xCD, 0xD5, 0xC8, 0xCB, 0x98, 0xD7, 0xCE, 0xDD, 0xCA, 0x98, 0xCC]

/-- C_0 ++ C_1 of 95_test_vectors.md 2.5. -/
def c01 : List Byte := bytes
  [0xD0, 0xCD, 0xD5, 0xCA, 0x80, 0xD8, 0xCF, 0xC6, 0xD4, 0x80, 0xD2, 0xC5, 0xD6, 0xCF, 0x80, 0xD3,
   0xC3, 0xC9, 0xD5, 0xD1, 0x80, 0xC5, 0xC8, 0xF4, 0x80, 0xCE, 0xD7, 0xCF, 0xD2, 0xC2, 0x80, 0xCB,
   0xC8, 0xD5, 0xCD, 0xD2, 0x98, 0xC0, 0xD7, 0xDE, 0xCC, 0x98, 0xCA, 0xDD, 0xCE, 0xD7, 0x98, 0xCB,
   0xE3, 0xB0, 0xAF, 0xB0, 0xEC, 0xE5, 0xAD, 0x9C, 0x98, 0xD6, 0xCF, 0xD7, 0xCA, 0xDA, 0x98, 0xD3]

/-- A payload of n equal bytes. -/
def payload (n : Nat) (h : n < 16777216) (b : Byte) : Payload :=
  ⟨BitVec.ofNat 24 n, List.replicate n b, by simp only [List.length_replicate, BitVec.toNat_ofNat]; omega⟩

/-- A context with key, iv, a plaintext and a ciphertext, each set. -/
def context (key iv : Block) (pt ct : Memory) : Context :=
  { Context.empty with key := key, keySet := true, iv := iv, ivSet := true, pt := pt, ptSet := true, ct := ct, ctSet := true }

/-- An engine with BUF_CAP = 96 and a given context, nothing pending. -/
def engine (c : Context) : State := ⟨Config.ofVectors, c, [], []⟩

/-- The context and the last response after `exec`, where it goes on. -/
def after (i : Instr) (s : State) : Option (Context × Option Response) :=
  match exec i s with
  | .next t => some (t.ctx, t.outbox.getLast?)
  | .fault _ => none
  | .refused _ => none

/-- The state after one step, where it goes on. -/
def stepped (s : State) : Option State :=
  match step s with
  | .next t => some t
  | .fault _ => none
  | .refused _ => none

/-! ## WellFormed: a term each check refuses -/

theorem test_payload_longer_than_len_holds_is_refused : Payload.ofBytes? (List.replicate 16777216 0) = none := by
  unfold Payload.ofBytes?
  exact dif_neg (fun h => absurd h (by rw [fitsLen, List.length_replicate]; omega))

theorem test_payload_of_other_length_is_refused : Payload.ofParts? 32 (List.replicate 31 0) = none := by decide

theorem test_payload_of_its_length_is_accepted : (Payload.ofParts? 2 [7, 8]).isSome = true := by decide

/-! ## Decoding: words written out from R71 and R73 -/

theorem test_decode_init : decodeTableWord 32 0b00000000000000000000000000000001 = some .init := by decide
theorem test_decode_set_key :
    decodeTableWord 32 0b00000000000000000000001000000010 = some (.setKey ⟨2, [0, 0], rfl⟩) := by decide
theorem test_decode_set_iv :
    decodeTableWord 32 0b00000000000000000000000100000011 = some (.setIv ⟨1, [0], rfl⟩) := by decide
theorem test_decode_set_pt :
    decodeTableWord 32 0b00000000000000000000000100000100 = some (.setPt ⟨1, [0], rfl⟩) := by decide
theorem test_decode_set_ct :
    decodeTableWord 32 0b00000000000000000000000100000101 = some (.setCt ⟨1, [0], rfl⟩) := by decide
theorem test_decode_encrypt : decodeTableWord 32 0b00000000000000000000000000000110 = some .encrypt := by decide
theorem test_decode_decrypt : decodeTableWord 32 0b00000000000000000000000000000111 = some .decrypt := by decide
theorem test_decode_pad :
    decodeTableWord 48 0b1010101000010001_00000000000000000000001000001000 = some (.pad ⟨2, [0x11, 0xAA], rfl⟩) := by
  decide
theorem test_decode_get_pt : decodeTableWord 32 0b00000000000000000000000000001001 = some .getPt := by decide
theorem test_decode_get_ct : decodeTableWord 32 0b00000000000000000000000000001010 = some .getCt := by decide
theorem test_decode_stat : decodeTableWord 32 0b00000000000000000000000000001011 = some .stat := by decide

/-- LEN is the whole of bits 31:8. -/
theorem test_decode_len_is_24_bits :
    (match decodeTableWord 32 0xFEDCBA04 with | some (.setPt pl) => pl.len == 0xFEDCBA | _ => false) = true := by decide

/-- The illegal words of 95_test_vectors.md 2.8. -/
theorem test_decode_illegal :
    [0x00000000, 0x0000020C, 0x000000FF, 0x00000101, 0x0000010B].map (decodeTableWord 32) = List.replicate 5 none := by
  decide

theorem test_decode_names_the_reason :
    decode (tableCommand 32 0x0000020C) = .illegal (.reservedOpcode 0x0C) ∧
    decode (tableCommand 32 0x00000101) = .illegal (.payloadOnFormatN 0x01 1) := by decide

/-- R85: CMD 0x00002002 is the bytes 02 20 00 00; a stream that ends inside a command is not read. -/
theorem test_serialise : wordBytes 0x00002002 = [0x02, 0x20, 0x00, 0x00] := by decide

theorem test_parse :
    parse [0x08, 0x02, 0x00, 0x00, 0x61, 0x62, 0x06] = .command ⟨0x00000208, [0x61, 0x62], by decide⟩ [0x06] ∧
    parse [0x08, 0x02, 0x00] = .shortWord ∧ parse [0x08, 0x02, 0x00, 0x00, 0x61] = .shortPayload 0x00000208 := by decide

/-- R83: `PAD "tawny"` is CMD 0x00000508. -/
theorem test_assemble :
    (Line.mk .pad [.text [0x74, 0x61, 0x77, 0x6E, 0x79]]).command? =
      some ⟨0x00000508, bytes [0x74, 0x61, 0x77, 0x6E, 0x79], by decide⟩ ∧
    (Line.mk .setKey [.times 31 0xAA]).command?.map (·.word) = some 0x00001F02 ∧
    (Line.mk .encrypt [.byte 0x00]).command? = none ∧ (Line.mk .pad [.text [0x80]]).command? = none := by decide

/-! ## The functions: 95_test_vectors.md 2.1 to 2.5 -/

theorem test_pad_lengths :
    [0, 1, 5, 16, 31, 32, 33, 40, 63, 64].map padCount = [32, 31, 27, 16, 1, 32, 31, 24, 1, 32] := by decide

theorem test_unpad_accepts :
    unpad (bytes [5, 5, 5, 5, 5]) = some [] ∧ unpad (List.replicate 32 0x20) = some [] ∧
    unpad (List.replicate 30 0x00 ++ [0x02, 0x02]) = some (List.replicate 30 0x00) := by decide

theorem test_unpad_rejects :
    unpad [] = none ∧ unpad (bytes [0, 0, 5]) = none ∧ unpad (List.replicate 30 0x00 ++ [0x03, 0x02]) = none ∧
    unpad (List.replicate 32 0x00) = none ∧ unpad (List.replicate 32 0x21) = none ∧ unpad k1.val = none := by decide

theorem test_xor32 : xor32 (rep32 0xFF) (rep32 0x0F) = rep32 0xF0 ∧ xor32 k1 v1 = rep32 0xA0 := by decide

set_option maxRecDepth 2000 in
/-- The row and column vector of 95_test_vectors.md 2.4. -/
theorem test_perm_rows_and_columns :
    (perm ⟨bytes [0x00, 0x01, 0x02, 0x03, 0x04, 0x05, 0x06, 0x07, 0x10, 0x11, 0x12, 0x13, 0x14, 0x15, 0x16, 0x17,
      0x20, 0x21, 0x22, 0x23, 0x24, 0x25, 0x26, 0x27, 0x30, 0x31, 0x32, 0x33, 0x34, 0x35, 0x36, 0x37], by decide⟩).val =
    bytes [0x27, 0x26, 0x25, 0x24, 0x23, 0x22, 0x21, 0x20, 0x37, 0x36, 0x35, 0x34, 0x33, 0x32, 0x31, 0x30,
      0x07, 0x06, 0x05, 0x04, 0x03, 0x02, 0x01, 0x00, 0x17, 0x16, 0x15, 0x14, 0x13, 0x12, 0x11, 0x10] := by decide

/-- Index 0 goes to index 23, index 31 to index 8 (95_test_vectors.md 2.4). -/
theorem test_perm_ends :
    (perm ⟨0xAB :: List.replicate 31 0, by decide⟩).val[23]? = some 0xAB ∧
    (perm ⟨List.replicate 31 0 ++ [0xCD], by decide⟩).val[8]? = some 0xCD := by decide

theorem test_block_value : (blockValue k1).extractLsb' 248 8 = 0x1F#8 := by decide

/-! ## One step of each command -/

theorem test_init_clears : after .init (engine (context k1 v1 m40 c01)) = some (Context.empty, some ⟨.ok, 0, []⟩) := by
  decide

theorem test_set_key_bad_length_keeps_key :
    (after (.setKey (payload 31 (by decide) 0xAA)) (engine (context k1 v1 [] []))).map (fun p => (p.1.key, p.2)) =
      some (k1, some ⟨.error .invalidLength, 0, []⟩) := by decide

theorem test_set_key_sets :
    (after (.setKey (payload 32 (by decide) 0xAA)) State.reset).map (fun p => (p.1.key, p.1.keySet, p.1.ivSet)) =
      some (rep32 0xAA, true, false) := by decide

theorem test_set_iv_sets :
    (after (.setIv (payload 32 (by decide) 0x0F)) State.reset).map (fun p => (p.1.iv, p.1.ivSet, p.1.keySet)) =
      some (rep32 0x0F, true, false) := by decide

/-- T9, T11, T13, T14 of 95_test_vectors.md 2.7. -/
theorem test_set_pt_lengths :
    [after (.setPt (payload 31 (by decide) 0)) State.reset, after (.setPt (payload 33 (by decide) 0)) State.reset,
      after (.setPt (payload 96 (by decide) 0)) State.reset, after (.setPt (payload 97 (by decide) 0)) State.reset].map
        (fun o => o.map fun p => (p.1.ptLen, p.1.ptSet, p.2.map (·.status))) =
      [some (0, false, some (.error .tooShort)), some (33, true, some .ok), some (96, true, some .ok),
        some (0, false, some (.error .outOfMemory))] := by decide

/-- T12 of 95_test_vectors.md 2.7: the old ciphertext is wholly replaced. -/
theorem test_set_ct_replaces :
    (after (.setCt (payload 32 (by decide) 0x11)) (engine (context k1 v1 [] (List.replicate 64 0)))).map (·.1.ct) =
      some (List.replicate 32 0x11) := by decide

theorem test_get_pt_returns_plaintext :
    (after .getPt (engine (context k1 v1 m40 c01))).map (·.2) = some (some ⟨.ok, 40, m40⟩) := by decide

theorem test_get_ct_returns_ciphertext :
    (after .getCt (engine (context k1 v1 m40 c01))).map (·.2) = some (some ⟨.ok, 64, c01⟩) := by decide

/-- The STAT of S2 of 95_test_vectors.md: 0F 28 00 00 00 40 00 00. -/
theorem test_stat_bytes :
    (after .stat (engine (context k1 v1 m40 c01))).map (fun p => p.2.map (·.data)) =
      some (some (bytes [0x0F, 0x28, 0x00, 0x00, 0x00, 0x40, 0x00, 0x00])) := by decide

set_option maxRecDepth 4000 in
/-- T15 and T16 of 95_test_vectors.md 2.7. -/
theorem test_pad_at_capacity :
    (after (.pad (payload 95 (by decide) 0)) State.reset).map (·.2) =
      some (some ⟨.ok, 96, List.replicate 95 0 ++ [0x01]⟩) ∧
    (after (.pad (payload 96 (by decide) 0)) State.reset).map (·.2) = some (some ⟨.error .outOfMemory, 0, []⟩) := by
  decide

/-- X2 of 95_test_vectors.md 2.6. -/
theorem test_encrypt_two_blocks :
    (after .encrypt (engine (context k1 v1 (pad m40) []))).map (fun p => (p.1.ct, p.1.keyround.val, p.2)) =
      some (c01, x1, some ⟨.ok, 64, []⟩) := by decide

/-- X14 and X15 of 95_test_vectors.md 2.6: no key; 33 bytes of plaintext. -/
theorem test_encrypt_missing_input :
    (after .encrypt (engine { context k1 v1 k1.val [] with keySet := false })).map (·.2) =
      some (some ⟨.error .missingInput, 0, []⟩) ∧
    (after .encrypt (engine (context k1 v1 (List.replicate 33 0) []))).map (·.2) =
      some (some ⟨.error .missingInput, 0, []⟩) := by decide

/-- X3 of 95_test_vectors.md 2.6. -/
theorem test_decrypt_two_blocks :
    (after .decrypt (engine (context k1 v1 [] c01))).map (fun p => (p.1.pt, p.1.keyround.val, p.2)) =
      some (m40, x1, some ⟨.ok, 40, []⟩) := by decide

/-- X9 of 95_test_vectors.md 2.6: CorruptPadding keeps PT, and KEYROUND runs. -/
theorem test_decrypt_corrupt :
    (after .decrypt (engine { context k1 v1 m40 (List.replicate 32 0) with keyround := k1 })).map
        (fun p => (p.1.pt, p.1.keyround, p.2)) =
      some (m40, Block.zero, some ⟨.error .corruptPadding, 0, []⟩) := by decide

/-! ## The step -/

/-- R78: an all-zero word is answered IllegalCommand, response word 0x00000006, and the next move is taken after it. -/
theorem test_step_illegal :
    (stepped (State.reset.withFetchWord 32 0)).map (fun t => (t.ctx, t.inbox, t.outbox.map (·.word))) =
      some (Context.empty, [], [0x00000006]) := by decide

/-- The step runs the word it is given, right after reset: SET_KEY of 32 zero bytes. -/
theorem test_step_set_key :
    (stepped (State.reset.withFetchWord 32 0x00002002)).map (fun t => (t.ctx.keySet, t.outbox.map (·.word))) =
      some (true, [0x00000000]) := by decide

theorem test_step_reset :
    (stepped { engine (context k1 v1 m40 c01) with inbox := [.resetDuring (encode .decrypt), .command (encode .stat)] }) =
      some { State.reset with inbox := [.command (encode .stat)] } := by decide

/-! ## Witnesses: the hypotheses of each statement are met -/

/-- An engine whose next move is a given command. -/
def asking (c : Context) (i : Instr) : State := { engine c with inbox := [.command (encode i)] }

/-- A context ENCRYPT and DECRYPT accept, with a ciphertext that unpads. -/
def good : Context := context k1 v1 (pad m40) c01

/-- A context DECRYPT answers CorruptPadding on. -/
def corrupt : Context := context k1 v1 m40 (List.replicate 32 0)

theorem good_inv : (engine good).Inv :=
  ⟨by decide, ⟨by decide, by decide, by decide, by decide, by decide, by decide, by decide⟩, by simp [engine]⟩

theorem reset_inv : State.reset.Inv :=
  ⟨by decide, ⟨by decide, by decide, by decide, by decide, by decide, by decide, by decide⟩, by
    simp [State.reset, State.resetWith]⟩

theorem witness_decode_legal : decode (encode .stat) = .legal .stat := by decide

theorem witness_word_illegal :
    (∃ s c rest, State.inbox s = HostMove.command c :: rest ∧ c.word.toNat % 256 = 0) ∧
    (∃ s c rest, State.inbox s = HostMove.command c :: rest ∧ 0x0C ≤ c.word.toNat % 256) ∧
    (∃ s c rest, State.inbox s = HostMove.command c :: rest ∧
      c.word.toNat % 256 ∈ [0x01, 0x06, 0x07, 0x09, 0x0A, 0x0B] ∧ c.word.toNat / 256 ≠ 0) :=
  ⟨⟨State.reset.withFetchWord 32 0x00000000, _, _, rfl, by decide⟩,
    ⟨State.reset.withFetchWord 32 0x0000000C, _, _, rfl, by decide⟩,
    ⟨State.reset.withFetchWord 32 0x0000010B, _, _, rfl, by decide⟩⟩

theorem witness_word_legal :
    ∃ s c rest, State.inbox s = HostMove.command c :: rest ∧
      ¬ (c.word.toNat % 256 = 0 ∨ 0x0C ≤ c.word.toNat % 256 ∨
        (c.word.toNat % 256 ∈ [0x01, 0x06, 0x07, 0x09, 0x0A, 0x0B] ∧ c.word.toNat / 256 ≠ 0)) :=
  ⟨State.reset.withFetchWord 32 0x0000000B, _, _, rfl, by decide⟩

theorem witness_row_matches : Instr.encrypt.row.matchesWord 0x00000006 = true := by decide

/-- A payload of each LEN and a command of each word of the worked encodings. -/
theorem witness_worked_words :
    (payload 32 (by decide) 0).len = 32 ∧ (payload 31 (by decide) 0).len = 31 ∧ (payload 64 (by decide) 0).len = 64 ∧
    (payload 5 (by decide) 0).len = 5 ∧ (payload 40 (by decide) 0).len = 40 ∧
    ∀ w ∈ [0x00000001, 0x00000006, 0x00000007, 0x00000009, 0x0000000A, 0x0000000B, 0x00002002, 0x00001F02, 0x00004004,
      0x00000508, 0x00002808, 0x00000000, 0x0000020C, 0x000000FF, 0x00000101, 0x0000010B],
      (tableCommand 32 w).word = BitVec.ofNat 32 w := by decide

/-- The rows of 95_test_vectors.md 2.8 that ask something of the state: PAD of 40 bytes, ENCRYPT of 64 bytes, DECRYPT to 40. -/
theorem witness_worked_rows :
    ((State.reset.withFetchWord 32 0x00002808).inbox = [.command (tableCommand 32 0x00002808)] ∧
      64 ≤ State.reset.cfg.bufCap) ∧
    (good.keySet = true ∧ good.ivSet = true ∧ good.ptSet = true ∧ good.ptLen = 64) ∧
    (good.ready good.ctSet good.ctLen = true ∧ unpad good.recovered = some m40 ∧ m40.length = 40) := by decide

/-- R53, R85: a response word serialises low byte first, the status byte first; then the data. -/
theorem test_serialise_response :
    (Response.success 64 []).serialise = [0x00, 0x40, 0x00, 0x00] ∧
    (Response.failure .invalidLength).serialise = [0x01, 0x00, 0x00, 0x00] ∧
    (Response.success 2 [0x61, 0x62]).serialise = [0x00, 0x02, 0x00, 0x00, 0x61, 0x62] := by decide

/-- Responses with and without data, and of the greatest COUNT, are well formed. -/
theorem witness_response_well_formed :
    (Response.success 2 [0x61, 0x62]).WellFormed ∧ (Response.success 16777215 []).WellFormed ∧
    (Response.failure .corruptPadding).WellFormed :=
  ⟨⟨by decide, by decide, by decide⟩, ⟨by decide, by decide, by decide⟩, ⟨by decide, by decide, by decide⟩⟩

theorem witness_line_ok : (Line.mk .pad []).ok = true ∧ (Line.mk .stat [.byte 0]).ok = false := by decide

theorem witness_step_decoded :
    (asking good .encrypt).inbox = [.command (encode .encrypt)] ∧ decode (encode .encrypt) = .legal .encrypt := by decide

theorem witness_idle : State.reset.inbox = [] := by decide

theorem witness_reset_moves :
    ∃ s t : State, s.inbox = [.reset] ∧ t.inbox = [.resetDuring (encode .encrypt)] :=
  ⟨{ engine good with inbox := [.reset] }, { engine good with inbox := [.resetDuring (encode .encrypt)] }, rfl, rfl⟩

/-- BUF_CAP at the ends of its range, and just outside. -/
theorem witness_config :
    [32, 96, 16777184].map (fun n => Config.wf ⟨n⟩) = [true, true, true] ∧
    [0, 33, 16777216].map (fun n => Config.wf ⟨n⟩) = [false, false, false] := by decide

theorem witness_step_next : ∃ t, step (asking good .decrypt) = .next t := ⟨_, rfl⟩

theorem witness_asking_inv : (asking good .decrypt).Inv := ⟨good_inv.cfg_wf, good_inv.ctx, good_inv.responses⟩

/-- Every error of R210 that a command raises is raised somewhere; an error response meets `Answered`. -/
theorem witness_each_error :
    [after (.setKey (payload 33 (by decide) 0)) (engine good), after (.setPt (payload 0 (by decide) 0)) (engine good),
      after .decrypt State.reset, after .decrypt (engine corrupt),
      after (.setCt (payload 97 (by decide) 0)) (engine good)].map (fun o => o.map fun p => p.2) =
      [some (some (.failure .invalidLength)), some (some (.failure .tooShort)), some (some (.failure .missingInput)),
        some (some (.failure .corruptPadding)), some (some (.failure .outOfMemory))] := by decide

theorem witness_illegal_answered :
    ∃ s c rest t r, State.inbox s = HostMove.command c :: rest ∧ step s = .next t ∧ t.outbox = s.outbox ++ [r] :=
  ⟨State.reset.withFetchWord 32 0xFF, _, _, _, Response.failure .illegalCommand, rfl, rfl, rfl⟩

theorem witness_error_next :
    (∃ t, exec (.setKey (payload 31 (by decide) 0)) (engine good) = .next t ∧
      (engine good).Answered (.failure .invalidLength) t) ∧
    (∃ t, exec .decrypt (engine corrupt) = .next t ∧ (engine corrupt).Answered (.failure .corruptPadding) t) :=
  ⟨⟨_, rfl, rfl, rfl, rfl⟩, ⟨_, rfl, rfl, rfl, rfl⟩⟩

theorem witness_repeat : ∃ t, exec .encrypt (engine good) = .next t ∧ (engine good).Answered (.success 64 []) t :=
  ⟨_, rfl, rfl, rfl, rfl⟩

theorem witness_flag_lost : ∃ u, exec .init (engine good) = .next u ∧
    (engine good).ctx.keySet = true ∧ u.ctx.keySet = false := ⟨_, rfl, rfl, rfl⟩

theorem witness_step_flag_lost : ∃ u, step (asking good .init) = .next u ∧
    (asking good .init).ctx.ptSet = true ∧ u.ctx.ptSet = false := ⟨_, rfl, rfl, rfl⟩

/-- LEN at the edges of the setters' ranges, BUF_CAP = 96. -/
theorem witness_setter_lengths :
    (payload 32 (by decide) 0).len.toNat = 32 ∧ (payload 31 (by decide) 0).len.toNat < 32 ∧
    32 ≤ (payload 96 (by decide) 0).len.toNat ∧ (payload 96 (by decide) 0).len.toNat ≤ State.reset.cfg.bufCap ∧
    32 ≤ State.reset.cfg.bufCap ∧ State.reset.cfg.bufCap < (payload 97 (by decide) 0).len.toNat := by decide

theorem witness_unset_buffers : State.reset.ctx.ptSet = false ∧ State.reset.ctx.ctSet = false := by decide

/-- PAD at the edge of BUF_CAP = 96: 95 bytes fit, 96 do not. -/
theorem witness_pad_lengths :
    95 + padCount 95 ≤ State.reset.cfg.bufCap ∧ State.reset.cfg.bufCap < 96 + padCount 96 ∧
    State.reset.cfg.wf = true := by decide

theorem witness_ready :
    good.keySet = true ∧ good.ivSet = true ∧ good.ptSet = true ∧ 0 < good.ptLen ∧ good.ptLen % 32 = 0 ∧
    good.ctSet = true ∧ 0 < good.ctLen ∧ good.ctLen % 32 = 0 := by decide

/-- Each failing condition of R160 alone: no key, no iv, no buffer, an empty one, one of 33 bytes. -/
theorem witness_not_ready :
    [{ good with keySet := false }, { good with ivSet := false }, { good with ptSet := false }, { good with pt := [] },
      { good with pt := List.replicate 33 0 }].map (fun c => c.ready c.ptSet c.ptLen) = List.replicate 5 false ∧
    [{ good with keySet := false }, { good with ivSet := false }, { good with ctSet := false }, { good with ct := [] },
      { good with ct := List.replicate 33 0 }].map (fun c => c.ready c.ctSet c.ctLen) = List.replicate 5 false := by
  decide

/-- The bytes DECRYPT recovers: of the form m ++ rep(p, p) for `good`, of no such form for `corrupt`. -/
theorem witness_recovered :
    good.recovered = m40 ++ List.replicate 24 (BitVec.ofNat 8 24) ∧ unpad corrupt.recovered = none ∧
    corrupt.recovered = List.replicate 32 0xA0 := by decide

/-- Two engines with different keys and ivs of the same XOR, and the same plaintext. -/
theorem witness_same_xor :
    xor32 v1 k1 = xor32 k1 v1 ∧ k1 ≠ v1 ∧ (context v1 k1 (pad m40) []).pt = good.pt := by decide

/-- A wrong key: block 0 differs, byte 32 on does not (X10 of 95_test_vectors.md 2.6). -/
theorem witness_wrong_key :
    (context Block.zero v1 [] c01).ct = good.ct ∧
    (context Block.zero v1 [] c01).recovered.take 8 = bytes [0x54, 0x69, 0x67, 0x23, 0x75, 0x70, 0x6F, 0x64] ∧
    good.recovered.take 8 ≠ (context Block.zero v1 [] c01).recovered.take 8 := by decide

/-- A message for the round trip, the longest that fits BUF_CAP = 96. -/
theorem witness_round_trip :
    (engine good).cfg.wf = true ∧ (engine good).ctx.keySet = true ∧ (engine good).ctx.ivSet = true ∧
    (payload 95 (by decide) 0).len.toNat < (engine good).cfg.bufCap := by decide

theorem witness_padded_index : m40.length ≤ 63 ∧ 63 < (pad m40).length := by decide

theorem witness_chain_indices :
    ∃ c d : Block, [k1, v1][0]? = some c ∧ [k1, v1][0 + 1]? = some d ∧ 1 < [k1, v1].length := ⟨k1, v1, rfl, rfl, by decide⟩

theorem witness_blocks : 1 < (Memory.blocks c01).length := by decide

theorem witness_worked_block : k1.val = (List.range 32).map (BitVec.ofNat 8) := by decide

theorem witness_setters :
    0x02 ≤ (Instr.setKey Payload.empty).opc.toNat ∧ (Instr.setCt Payload.empty).opc.toNat ≤ 0x05 ∧
    (Instr.setKey Payload.empty).opc ≠ (Instr.setCt Payload.empty).opc := by decide

theorem witness_set_answered :
    (∃ t, exec (.setPt (payload 32 (by decide) 0x41)) (engine good) = .next t ∧ (engine good).Answered (.success 0 []) t) ∧
    (∃ t, exec (.setCt (payload 96 (by decide) 0x41)) (engine good) = .next t ∧ (engine good).Answered (.success 0 []) t) :=
  ⟨⟨_, rfl, rfl, rfl, rfl⟩, ⟨_, rfl, rfl, rfl, rfl⟩⟩

/-- Two states the host cannot tell apart that differ in KEYROUND and in the bytes of an unset key. -/
theorem witness_same_to_host :
    State.SameToHost (engine Context.empty) (engine { Context.empty with keyround := k1, key := v1 }) :=
  ⟨rfl, rfl, rfl, ⟨rfl, by decide, rfl, by decide, rfl, rfl, rfl, rfl⟩⟩

end Sys2Proof.Tests
end

section
/-! Proofs of the statements on decoding, on the form of a response and on the status codes (rules R71 to R82). -/

namespace Sys2Proof

/-! ## What a command word decodes to -/

/-- The format N opcodes, whose commands take no payload (R73). -/
def formatNOpcodes : List Nat := [0x01, 0x06, 0x07, 0x09, 0x0A, 0x0B]

/-- The command words of R78 and R79: a reserved OPC, or a format N opcode with LEN != 0. -/
def IllegalWord (w : Word) : Prop :=
  w.toNat % 256 = 0 ∨ 0x0C ≤ w.toNat % 256 ∨ (w.toNat % 256 ∈ formatNOpcodes ∧ w.toNat / 256 ≠ 0)

/-- What a result of decoding says of the command it was read from: an instruction has the word's OPC and the command's
payload, and an illegal result has a word of R78 or R79. -/
def Decoded.Describes (c : Command) : Decoded → Prop
  | .legal i => c.word.toNat % 256 = i.opc.toNat ∧ i.payload = c.toPayload
  | .illegal _ => IllegalWord c.word

theorem Instr.opc_pos (i : Instr) : 1 ≤ i.opc.toNat := by cases i <;> simp [Instr.opc]

theorem Instr.opc_le (i : Instr) : i.opc.toNat ≤ 0x0B := by cases i <;> simp [Instr.opc]

theorem Instr.payload_of_formatN {i : Instr} (h : i.opc.toNat ∈ formatNOpcodes) : i.payload = Payload.empty := by
  cases i
  case init | encrypt | decrypt | getPt | getCt | stat => rfl
  all_goals simp [Instr.opc, formatNOpcodes] at h

/-- `formatN` checks the one thing R79 asks of a format N word, LEN = 0. -/
theorem formatN_describes {c : Command} {i : Instr} (hopc : (opcField c.word).toNat = i.opc.toNat)
    (hN : i.opc.toNat ∈ formatNOpcodes) : (formatN c.word i).Describes c := by
  rw [opcField_toNat] at hopc
  by_cases hlen : lenField c.word = 0
  · have hpl : c.toPayload = Payload.empty := Payload.eq_empty hlen
    rw [formatN, if_pos hlen]
    exact ⟨hopc, (Instr.payload_of_formatN hN).trans hpl.symm⟩
  · rw [formatN, if_neg hlen]
    refine .inr (.inr ⟨hopc ▸ hN, fun h => hlen (BitVec.eq_of_toNat_eq ?_)⟩)
    rw [lenField_toNat, h]
    rfl

/-- Every result of `decode` describes its command (R82). -/
theorem decode_describes (c : Command) : (decode c).Describes c := by
  have hopc := opcField_toNat c.word
  unfold decode
  split
  case h_1 h | h_6 h | h_7 h | h_9 h | h_10 h | h_11 h =>
    exact formatN_describes h (by simp [Instr.opc, formatNOpcodes])
  case h_2 h | h_3 h | h_4 h | h_5 h | h_8 h => exact ⟨hopc.symm.trans h, rfl⟩
  case h_12 =>
    simp only [imp_false] at *
    have reserved : c.word.toNat % 256 = 0 ∨ 0x0C ≤ c.word.toNat % 256 := by omega
    exact reserved.imp_right .inl

theorem decode_legal {c : Command} {i : Instr} (h : decode c = .legal i) :
    c.word.toNat % 256 = i.opc.toNat ∧ i.payload = c.toPayload := by
  have hc := decode_describes c
  rwa [h] at hc

theorem decode_illegal {c : Command} {why : Illegal} (h : decode c = .illegal why) : IllegalWord c.word := by
  have hc := decode_describes c
  rwa [h] at hc

/-! ## The opcode table -/

/-- The rows of the table in one formula: the value is the opcode, and the mask is that of the format (R74). -/
theorem Instr.row_eq (i : Instr) :
    i.row = ⟨if i.opc.toNat ∈ formatNOpcodes then 0xFFFFFFFF else 0x000000FF, i.opc.setWidth 32⟩ := by
  cases i <;> rfl

/-- A row is matched by the words with its opcode and, for format N, LEN = 0. -/
theorem Instr.row_matchesWord_iff (i : Instr) (w : Word) :
    i.row.matchesWord w = true ↔
      w.toNat % 256 = i.opc.toNat ∧ (i.opc.toNat ∈ formatNOpcodes → w.toNat / 256 = 0) := by
  have hopc := i.opc.isLt
  have hw := w.isLt
  rw [Instr.row_eq, TableRow.matchesWord, beq_iff_eq, ← BitVec.toNat_inj, BitVec.toNat_and,
    BitVec.toNat_setWidth_of_le (by decide)]
  by_cases hN : i.opc.toNat ∈ formatNOpcodes
  · have hmask : w.toNat &&& (0xFFFFFFFF : Word).toNat = w.toNat := by
      rw [show (0xFFFFFFFF : Word).toNat = 2 ^ 32 - 1 from rfl, Nat.and_two_pow_sub_one_eq_mod]
      omega
    simp only [hN, if_true, hmask, true_imp_iff]
    omega
  · have hmask : w.toNat &&& (0x000000FF : Word).toNat = w.toNat % 256 :=
      Nat.and_two_pow_sub_one_eq_mod w.toNat 8
    simp only [hN, if_false, hmask, false_imp_iff, and_true]

/-- No word of a row is illegal (R80). -/
theorem not_illegalWord_of_matchesWord {i : Instr} {w : Word} (h : i.row.matchesWord w = true) : ¬ IllegalWord w := by
  obtain ⟨hopc, hlen⟩ := (i.row_matchesWord_iff w).1 h
  have := i.opc_pos
  have := i.opc_le
  rintro (h0 | h12 | ⟨hN, hne⟩)
  · omega
  · omega
  · exact hne (hlen (hopc ▸ hN))

theorem matchesWord_of_decode_legal {c : Command} {i : Instr} (h : decode c = .legal i) :
    i.row.matchesWord c.word = true := by
  obtain ⟨hopc, hpl⟩ := decode_legal h
  refine (i.row_matchesWord_iff _).2 ⟨hopc, fun hN => ?_⟩
  have hlen : lenField c.word = 0 := congrArg Payload.len (hpl.symm.trans (Instr.payload_of_formatN hN))
  rw [← lenField_toNat, hlen]
  rfl

/-- A word decodes to a command exactly when it is not one of R78 and R79 (R80). -/
theorem exists_decode_legal_iff (c : Command) : (∃ i, decode c = .legal i) ↔ ¬ IllegalWord c.word := by
  constructor
  · rintro ⟨i, h⟩
    exact not_illegalWord_of_matchesWord (matchesWord_of_decode_legal h)
  · intro hw
    rcases h : decode c with i | why
    · exact ⟨i, rfl⟩
    · exact absurd (decode_illegal h) hw

/-- Settles O4: a decoded word has the opcode of its row and, for format N, LEN = 0; a word of a row is not illegal, and what
it decodes to has the row's opcode, which determines the row. -/
theorem decodingFollowsTheOpcodeTable : Obligations.DecodingFollowsTheOpcodeTable := by
  refine ⟨fun c i => matchesWord_of_decode_legal, fun c i hi => ?_⟩
  obtain ⟨j, hj⟩ := (exists_decode_legal_iff c).2 (not_illegalWord_of_matchesWord hi)
  have hopc : j.opc = i.opc :=
    BitVec.eq_of_toNat_eq ((decode_legal hj).1.symm.trans ((i.row_matchesWord_iff _).1 hi).1)
  exact ⟨j, hj, by rw [Instr.row_eq, Instr.row_eq, hopc]⟩

namespace Machine

/-! ## The step that takes a command -/

theorem step_of_decode_legal {s : State} {c : Command} {rest : List HostMove} {i : Instr}
    (hin : s.inbox = .command c :: rest) (hd : decode c = .legal i) : step s = exec i { s with inbox := rest } := by
  simp [step, fetch, hin, hd]

theorem step_of_decode_illegal {s : State} {c : Command} {rest : List HostMove} {why : Illegal}
    (hin : s.inbox = .command c :: rest) (hd : decode c = .illegal why) :
    step s = .next (State.give { s with inbox := rest } (Response.failure .illegalCommand)) := by
  simp [step, fetch, hin, hd, takeIllegal, raise_eq]

/-- Settles O3: a word decodes to a command exactly when it is not one of R78 and R79, and the step follows the decoder. -/
theorem everyCommandWordIsDecodedOrIllegal : Obligations.EveryCommandWordIsDecodedOrIllegal := by
  intro s c rest hin
  refine ⟨fun (hw : IllegalWord c.word) => ?_, fun (hw : ¬ IllegalWord c.word) => ?_⟩
  · rcases hd : decode c with i | why
    · exact absurd hw ((exists_decode_legal_iff c).1 ⟨i, hd⟩)
    · exact ⟨_, step_of_decode_illegal hin hd, Context.keepsAll_refl _, rfl, rfl, rfl, rfl⟩
  · obtain ⟨i, hd⟩ := (exists_decode_legal_iff c).2 hw
    obtain ⟨hopc, hpl⟩ := decode_legal hd
    refine ⟨i, hd, hopc.symm, ?_, congrArg Payload.bytes hpl, step_of_decode_legal hin hd⟩
    exact hpl ▸ lenField_toNat c.word

/-! ## The form of a response -/

/-- Settles O9, status by status. -/
theorem statusCodesAreThoseOfTheTable : Obligations.StatusCodesAreThoseOfTheTable := by
  refine ⟨by decide, ?_⟩
  rintro (_ | e)
  · decide
  · cases e <;> decide

/-- An error response is never a success. -/
theorem Response.failure_status_ne_ok (e : Error) : (Response.failure e).status ≠ .ok := nofun

/-- What DECRYPT recovers has the form of a buffer where CT has. -/
theorem Context.wf_recovered {cfg : Config} {c : Context} (h : c.ct.wf cfg = true) : c.recovered.wf cfg = true :=
  Memory.wf_ofBlocks h (length_decBlocks _ _)

/-- No command answers a COUNT above BUF_CAP (R75). -/
theorem Effect.count_le_bufCap {cfg : Config} {c c' : Context} {i : Instr} {r : Response} (he : Effect cfg c i c' r)
    (hcfg : cfg.wf = true) (hc : c.Inv cfg) : r.count ≤ cfg.bufCap := by
  have hpt : c.pt.length ≤ cfg.bufCap := Memory.wf_iff.1 hc.pt_fits
  have hct : c.ct.length ≤ cfg.bufCap := Memory.wf_iff.1 hc.ct_fits
  cases he
  case padOk h => exact h
  case getPt => exact hpt
  case getCt => exact hct
  case stat =>
    simp only [Config.wf, Bool.and_eq_true, decide_eq_true_eq] at hcfg
    simp only [Response.success]
    omega
  case encOk =>
    simp only [Response.success]
    omega
  case decOk hu => exact Memory.wf_iff.1 (Memory.wf_unpad (Context.wf_recovered hc.ct_fits) hu)
  all_goals exact Nat.zero_le _

/-- COUNT of every response fits its 24 bits (R9, R75). -/
theorem Effect.count_fits {cfg : Config} {c c' : Context} {i : Instr} {r : Response} (he : Effect cfg c i c' r)
    (hcfg : cfg.wf = true) (hc : c.Inv cfg) : r.count < 16777216 := by
  have := he.count_le_bufCap hcfg hc
  simp only [Config.wf, Bool.and_eq_true, decide_eq_true_eq] at hcfg
  omega

/-- A response is a success, or an error with COUNT = 0 and no data (R75, R211). -/
theorem Effect.ok_or_failure {cfg : Config} {c c' : Context} {i : Instr} {r : Response} (he : Effect cfg c i c' r) :
    r.status = .ok ∨ ∃ e, r = Response.failure e := by
  cases he
  case keyBad | ivBad | ptShort | ptBig | ctShort | ctBig | padBig | encBad | decBad | decCorrupt =>
    exact .inr ⟨_, rfl⟩
  all_goals exact .inl rfl

/-- Settles O17: an illegal word is answered with a bare error; every command's response is read off the cases of `Effect`,
and the invariant keeps COUNT within its 24 bits. -/
theorem countsAndDataPhases : Obligations.CountsAndDataPhases := by
  refine ⟨fun s c rest why hin hd => ?_, fun i s hs => ?_⟩
  · exact ⟨_, _, step_of_decode_illegal hin hd, rfl, rfl, Response.failure_status_ne_ok _, rfl, rfl⟩
  · obtain ⟨c', r, he, hexec⟩ := exec_effect i s
    refine ⟨_, r, hexec, State.withCtx_give_answered s c' r,
      Response.word_toNat (he.count_fits hs.cfg_wf hs.ctx), fun hne => ?_, fun hok => ?_⟩
    · obtain ⟨e, rfl⟩ := he.ok_or_failure.resolve_left hne
      exact ⟨rfl, rfl⟩
    · cases he
      case init | keyOk | ivOk | ptOk | ctOk | decOk | getPt | getCt | stat => exact ⟨rfl, rfl⟩
      case encOk => simp [Response.success, Memory.length_blocks]
      case padOk pl _ => simp [Response.success, length_pad, pl.bytes_length]
      all_goals exact absurd hok (Response.failure_status_ne_ok _)

end Machine

end Sys2Proof
end

section
/-! Proofs of the statements on the padding codec: pad, unpad and the command PAD (rules R100 to R106). -/

namespace Sys2Proof.Machine

/-! ## The pad bytes -/

/-- A pad count fits in a byte: "valid because `BLOCK_SIZE = 32` fits in a byte" (R100). -/
theorem toNat_padByte {n : Nat} (h : n ≤ 32) : (BitVec.ofNat 8 n : Byte).toNat = n :=
  Nat.mod_eq_of_lt (by omega)

/-- Settles O37: the bounds of the pad count, and the pad count as a byte. -/
theorem padAppendsItsCount : Obligations.PadAppendsItsCount := fun s =>
  ⟨padCount s.length, rfl, padCount_pos _, padCount_le _, toNat_padByte (padCount_le _), rfl⟩

/-! ## What unpad accepts -/

/-- The three checks of R102 together: a sequence passes them with `p` exactly when it ends in `p` bytes of value `p`. -/
theorem paddingOk_iff (s : List Byte) (p : Byte) :
    paddingOk s p = true ↔ 1 ≤ p.toNat ∧ p.toNat ≤ 32 ∧ List.replicate p.toNat p <:+ s := by
  simp only [paddingOk, Bool.and_eq_true, decide_eq_true_eq, List.all_eq_true, beq_iff_eq, and_assoc]
  refine and_congr_right fun _ => and_congr_right fun _ => ?_
  rw [List.suffix_iff_eq_drop, List.length_replicate, eq_comm (a := List.replicate _ _), List.eq_replicate_iff,
    List.length_drop]
  exact and_congr_left fun _ => by omega

/-- What `unpad` does with a sequence whose last byte is `p` (R102). -/
theorem unpad_of_getLast? {s : List Byte} {p : Byte} (h : s.getLast? = some p) (hok : paddingOk s p = true) :
    unpad s = some (s.take (s.length - p.toNat)) := by
  simp [unpad, h, hok]

/-- `unpad` accepts exactly the sequences that end in `p` bytes of value `p`, and removes those. -/
theorem unpad_eq_some_iff (s m : List Byte) :
    unpad s = some m ↔ ∃ p : Byte, 1 ≤ p.toNat ∧ p.toNat ≤ 32 ∧ s = m ++ List.replicate p.toNat p := by
  constructor
  · intro h
    obtain ⟨p, -, hok, rfl⟩ := unpad_some h
    obtain ⟨h1, h32, m, rfl⟩ := (paddingOk_iff s p).1 hok
    exact ⟨p, h1, h32, by simp⟩
  · rintro ⟨p, h1, h32, rfl⟩
    have hlast : (m ++ List.replicate p.toNat p).getLast? = some p := by
      have hp : p.toNat ≠ 0 := by omega
      simp [List.getLast?_append, List.getLast?_replicate, hp]
    rw [unpad_of_getLast? hlast ((paddingOk_iff _ p).2 ⟨h1, h32, List.suffix_append _ _⟩)]
    simp

/-- Settles O39: a pad byte and its value, 1 to 32, determine each other. -/
theorem unpadAcceptsExactlyWellPaddedSequences : Obligations.UnpadAcceptsExactlyWellPaddedSequences := by
  refine ⟨rfl, fun s m => (unpad_eq_some_iff s m).trans ⟨?_, ?_⟩⟩
  · rintro ⟨p, h1, h32, rfl⟩
    exact ⟨p.toNat, h1, h32, by simp⟩
  · rintro ⟨n, h1, h32, rfl⟩
    have hn := toNat_padByte h32
    exact ⟨BitVec.ofNat 8 n, by omega, by omega, by rw [hn]⟩

/-! ## The command PAD -/

/-- The padded payload, its pad count taken from LEN (R106). -/
theorem pad_payload (pl : Payload) : pad pl.bytes =
    pl.bytes ++ List.replicate (padCount pl.len.toNat) (BitVec.ofNat 8 (padCount pl.len.toNat)) := by
  rw [pad, pl.bytes_length]

/-- A padded length fits a capacity of whole blocks exactly when the capacity holds one byte more than the length: the
padded length is the least multiple of 32 above it (R101 a). -/
theorem add_padCount_le_iff {cap : Nat} (h : cap % 32 = 0) (len : Nat) : len + padCount len ≤ cap ↔ len < cap := by
  unfold padCount
  omega

/-- Settles O29, by the two effects of PAD; BUF_CAP is a multiple of 32 (R9), so a payload shorter than it still fits when
padded. -/
theorem padReturnsThePaddedPayload : Obligations.PadReturnsThePaddedPayload := by
  intro pl s
  refine ⟨commandWord_toNat _ _, padCount pl.len.toNat, rfl, fun hfits => ?_, fun hbig => ?_, fun hcfg => ?_⟩
  · rw [← pad_payload]
    exact ⟨_, effect_exec (.padOk pl hfits), State.withCtx_give_answered _ _ _, Context.keepsAll_refl _⟩
  · exact ⟨_, effect_exec (.padBig pl hbig), State.withCtx_give_answered _ _ _, Context.keepsAll_refl _⟩
  · simp only [Config.wf, Bool.and_eq_true, beq_iff_eq] at hcfg
    obtain ⟨⟨hblocks, -⟩, -⟩ := hcfg
    exact add_padCount_le_iff hblocks _

end Sys2Proof.Machine
end

section
/-! Proofs of the statements on xor32 and the permutation network (rules R120 to R124). -/

namespace Sys2Proof.Machine

/-! ## xor32 -/

/-- A block has a byte at every index below 32 (R11). -/
theorem Block.exists_byte (b : Block) {k : Nat} (hk : k < 32) : ∃ x : Byte, b.val[k]? = some x :=
  ⟨_, List.getElem?_eq_getElem (b.property.symm ▸ hk)⟩

/-- Settles O41: xor32 zips the two blocks, and both have a byte at every index below 32. -/
theorem xorActsIndexByIndex : Obligations.XorActsIndexByIndex := by
  intro a b k hk
  obtain ⟨x, hx⟩ := Block.exists_byte a hk
  obtain ⟨y, hy⟩ := Block.exists_byte b hk
  exact ⟨x, y, hx, hy, by rw [xor32_val, List.getElem?_zipWith, hx, hy]⟩

/-! ## The permutation network -/

/-- The rows of a block's matrix, one after the other, are the block (R52). -/
theorem Matrix.bytes_ofBlock (b : Block) : (Matrix.ofBlock b).bytes = b.val := by
  have hrow3 : (b.val.drop 24).take 8 = b.val.drop 24 := List.take_of_length_le (by simp [b.property])
  have hrow (n : Nat) : (b.val.drop n).take 8 ++ b.val.drop (n + 8) = b.val.drop n := by
    rw [← List.drop_drop, List.take_append_drop]
  simp only [Matrix.bytes, Matrix.ofBlock, hrow3, List.append_assoc, hrow, List.take_append_drop]

/-- The matrix of a permuted block is the block's matrix after the three steps: the bytes written out are read back row by
row (R122). -/
theorem Matrix.ofBlock_perm (b : Block) :
    Matrix.ofBlock (perm b) = (Matrix.ofBlock b).swapRows02.swapRows13.mirrorColumns := by
  simp [Matrix.ofBlock, perm_val, Matrix.swapRows02, Matrix.swapRows13, Matrix.mirrorColumns, b.property,
    List.drop_append, List.take_of_length_le, List.drop_eq_nil_of_le]

/-- The three steps of R122, done twice, put every row and every column back. -/
theorem Matrix.steps_twice (m : Matrix) :
    m.swapRows02.swapRows13.mirrorColumns.swapRows02.swapRows13.mirrorColumns = m := by
  simp [Matrix.swapRows02, Matrix.swapRows13, Matrix.mirrorColumns]

/-- Settles O43 on the matrices: the second perm does the three steps again on the matrix that the first one wrote out. -/
theorem permIsAnInvolution : Obligations.PermIsAnInvolution := by
  intro b
  apply Subtype.ext
  calc (perm (perm b)).val
      = (Matrix.ofBlock (perm b)).swapRows02.swapRows13.mirrorColumns.bytes := rfl
    _ = (Matrix.ofBlock b).bytes := by rw [Matrix.ofBlock_perm, Matrix.steps_twice]
    _ = b.val := Matrix.bytes_ofBlock b

end Sys2Proof.Machine
end

section
/-! Proofs of the statements on ENCRYPT and DECRYPT (rules R160 to R168): the precondition, the chain of keyrounds along the
block loop, and what the two commands write. -/

namespace Sys2Proof

/-! ## Blocks as aligned reads -/

/-- A block that was taken is the aligned read at its index (R51, R54). -/
theorem read?_of_getElem?_takeBlocks {n i : Nat} {l : List Byte} {b : Block} (h : (takeBlocks n l)[i]? = some b) :
    Memory.read? l (32 * i) 32 = some b.val := by
  induction n generalizing l i with
  | zero => simp [takeBlocks] at h
  | succ n ih =>
    by_cases h32 : 32 ≤ l.length
    · rw [takeBlocks, dif_pos h32] at h
      cases i with
      | zero =>
        cases h
        simp [Memory.read?, h32]
      | succ i =>
        have hrest := ih h
        have hfits : 32 * i + 32 ≤ l.length - 32 ↔ 32 * (i + 1) + 32 ≤ l.length := by omega
        simpa only [Memory.read?, List.length_drop, List.drop_drop, hfits,
          show 32 + 32 * i = 32 * (i + 1) by omega] using hrest
    · simp [takeBlocks, h32] at h

/-- Block i of a buffer is the aligned read at 32 * i (R51, R54). -/
theorem Memory.read?_of_getElem?_blocks {m : Memory} {i : Nat} {b : Block} (h : m.blocks[i]? = some b) :
    m.read? (32 * i) 32 = some b.val :=
  read?_of_getElem?_takeBlocks h

/-- Block i of an assembled buffer stands at offset 32 * i (R161). -/
theorem Memory.read?_ofBlocks {bs : List Block} {i : Nat} {b : Block} (h : bs[i]? = some b) :
    (Memory.ofBlocks bs).read? (32 * i) 32 = some b.val :=
  Memory.read?_of_getElem?_blocks (by rwa [Memory.blocks_ofBlocks])

namespace Machine

/-! ## The keyrounds of the block loop -/

/-- The i-th keyround of the block loop from keyround `k` over `bs`: KEYROUND after the first `i` blocks (R146). -/
def keyroundAt (f : Block → Block → Block × Block) (k : Block) (bs : List Block) (i : Nat) : Block :=
  (blockLoop f k (bs.take i)).2

section Keyrounds
variable (f : Block → Block → Block × Block) (k : Block)

@[simp] theorem keyroundAt_zero (bs : List Block) : keyroundAt f k bs 0 = k := by simp [keyroundAt]

@[simp] theorem keyroundAt_cons_succ (b : Block) (bs : List Block) (i : Nat) :
    keyroundAt f k (b :: bs) (i + 1) = keyroundAt f (f k b).2 bs i := rfl

/-- The last keyround is the one the loop ends with (R146). -/
theorem keyroundAt_length (bs : List Block) : keyroundAt f k bs bs.length = (blockLoop f k bs).2 := by
  rw [keyroundAt, List.take_length]

/-- At block i the loop emits and chains what one step from the i-th keyround does. -/
theorem blockLoop_at {bs : List Block} {i : Nat} {b : Block} (h : bs[i]? = some b) :
    (blockLoop f k bs).1[i]? = some (f (keyroundAt f k bs i) b).1 ∧
      keyroundAt f k bs (i + 1) = (f (keyroundAt f k bs i) b).2 := by
  induction bs generalizing k i with
  | nil => simp at h
  | cons b' bs ih =>
    cases i with
    | zero =>
      cases h
      simp
    | succ i => exact ih _ h

/-- The block loop over a buffer, block by block: what is read, the next keyround, and what stands in the assembled output
(R161, R163). -/
theorem blockLoop_blocks_at (m : Memory) {i : Nat} (hi : i < m.length / 32) :
    ∃ b : Block, m.read? (32 * i) 32 = some b.val ∧
      keyroundAt f k m.blocks (i + 1) = (f (keyroundAt f k m.blocks i) b).2 ∧
      (Memory.ofBlocks (blockLoop f k m.blocks).1).read? (32 * i) 32 =
        some (f (keyroundAt f k m.blocks i) b).1.val := by
  have hb := List.getElem?_eq_getElem (m.length_blocks.symm ▸ hi)
  obtain ⟨hout, hnext⟩ := blockLoop_at f k hb
  exact ⟨_, Memory.read?_of_getElem?_blocks hb, hnext, Memory.read?_ofBlocks hout⟩

/-- The loop over a buffer ends with the keyround of index length div 32. -/
theorem blockLoop_blocks_keyround (m : Memory) :
    (blockLoop f k m.blocks).2 = keyroundAt f k m.blocks (m.length / 32) := by
  rw [← m.length_blocks, keyroundAt_length]

end Keyrounds

/-! ## The precondition -/

/-- The precondition of R160 fails where one of its five conditions does. -/
theorem Context.ready_eq_false_iff {c : Context} {isSet : Bool} {len : Nat} :
    c.ready isSet len = false ↔
      c.keySet = false ∨ c.ivSet = false ∨ isSet = false ∨ len = 0 ∨ len % 32 ≠ 0 := by
  rw [Bool.eq_false_iff, ne_eq, Context.ready_iff]
  simp only [not_and_or, Bool.not_eq_true, Nat.pos_iff_ne_zero, not_not, ne_eq]

theorem Context.ready_eq_false_of_not {c : Context} {isSet : Bool} {len : Nat}
    (h : ¬ (c.keySet = true ∧ c.ivSet = true ∧ isSet = true ∧ 0 < len ∧ len % 32 = 0)) :
    c.ready isSet len = false :=
  Bool.eq_false_iff.2 (mt Context.ready_iff.1 h)

/-- A command whose effect leaves the context as it was changes nothing and gives its response. -/
theorem exec_keepsAll_of_effect {s : State} {i : Instr} {r : Response} (he : Effect s.cfg s.ctx i s.ctx r) :
    ∃ t, exec i s = .next t ∧ s.Answered r t ∧ s.ctx.KeepsAll t.ctx :=
  ⟨_, effect_exec he, State.withCtx_give_answered _ _ _, Context.keepsAll_refl _⟩

/-- ENCRYPT answers MissingInput only where its precondition fails (R160). -/
theorem Effect.encrypt_not_ready {cfg : Config} {c c' : Context} {r : Response} (he : Effect cfg c .encrypt c' r)
    (hr : r.status = .error .missingInput) : c.ready c.ptSet c.ptLen = false := by
  cases he with
  | encBad h => exact h
  | encOk => cases hr

/-- DECRYPT answers MissingInput only where its precondition fails (R160). -/
theorem Effect.decrypt_not_ready {cfg : Config} {c c' : Context} {r : Response} (he : Effect cfg c .decrypt c' r)
    (hr : r.status = .error .missingInput) : c.ready c.ctSet c.ctLen = false := by
  cases he with
  | decBad h => exact h
  | decCorrupt | decOk => cases hr

/-- Settles O30: the precondition fails exactly where one of its conditions does, and MissingInput is raised exactly
there. -/
theorem missingInputIsCheckedFirst : Obligations.MissingInputIsCheckedFirst := by
  intro s
  simp only [← Context.ready_eq_false_iff]
  refine ⟨fun h => exec_keepsAll_of_effect (.encBad h), fun h => exec_keepsAll_of_effect (.decBad h),
    fun h => ?_, fun h => ?_⟩
  · obtain ⟨c', r, he, hexec⟩ := exec_effect .encrypt s
    exact ⟨_, r, hexec, State.withCtx_give_answered _ _ _, mt he.encrypt_not_ready h⟩
  · obtain ⟨c', r, he, hexec⟩ := exec_effect .decrypt s
    exact ⟨_, r, hexec, State.withCtx_give_answered _ _ _, mt he.decrypt_not_ready h⟩

/-! ## ENCRYPT -/

/-- Settles O31: the keyrounds are those of the block loop over PT, and the loop's output, assembled, is CT. -/
theorem encryptChainsEveryBlockIntoTheCiphertext : Obligations.EncryptChainsEveryBlockIntoTheCiphertext := by
  intro s
  refine ⟨rfl, fun hkey hiv hpt hpos hwhole => ?_,
    fun h => exec_keepsAll_of_effect (.encBad (Context.ready_eq_false_of_not h))⟩
  have hlen : 32 * (s.ctx.pt.length / 32) = s.ctx.ptLen := Nat.mul_div_cancel' (Nat.dvd_of_mod_eq_zero hwhole)
  have hexec := effect_exec (.encOk (cfg := s.cfg) (Context.ready_iff.2 ⟨hkey, hiv, hpt, hpos, hwhole⟩))
  rw [hlen] at hexec
  refine ⟨_, keyroundAt encBlock (seed s.ctx) s.ctx.pt.blocks, hexec, State.withCtx_give_answered _ _ _,
    keyroundAt_zero _ _ _, fun i hi => ?_, ?_, rfl, blockLoop_blocks_keyround _ _ _, ⟨rfl, rfl⟩, ⟨rfl, rfl⟩,
    ⟨Memory.same_refl _, rfl⟩⟩
  · obtain ⟨b, hread, hnext, hout⟩ := blockLoop_blocks_at encBlock (seed s.ctx) s.ctx.pt hi
    exact ⟨b, hread, hnext, by rw [hnext]; exact hout⟩
  · simpa [Memory.length_blocks] using hlen

/-! ## DECRYPT -/

/-- DECRYPT recovers 32 bytes for each block of CT (R163). -/
theorem Context.length_recovered (c : Context) : c.recovered.length = 32 * (c.ct.length / 32) := by
  rw [Context.recovered, Memory.length_ofBlocks, length_decBlocks, Memory.length_blocks]

/-- Unpadding takes at least one byte away (R102). -/
theorem length_lt_of_unpad {s m : List Byte} (h : unpad s = some m) : m.length < s.length := by
  obtain ⟨p, hp, -, rfl⟩ := (unpad_eq_some_iff s m).1 h
  simp only [List.length_append, List.length_replicate]
  omega

/-- `unpad` of a sequence that ends in 1 to 32 bytes of value their number (R102). -/
theorem unpad_append_replicate (m : List Byte) {p : Nat} (h1 : 1 ≤ p) (h32 : p ≤ 32) :
    unpad (m ++ List.replicate p (BitVec.ofNat 8 p)) = some m :=
  (unpadAcceptsExactlyWellPaddedSequences.2 _ _).2 ⟨p, h1, h32, rfl⟩

/-- What DECRYPT reads, chains and recovers at block i (R142, R163). -/
theorem Context.recovered_at (c : Context) {i : Nat} (hi : i < c.ctLen / 32) :
    ∃ b : Block, c.ct.read? (32 * i) 32 = some b.val ∧
      keyroundAt decBlock (seed c) c.ct.blocks (i + 1) = perm b ∧
      c.recovered.read? (32 * i) 32 = some (xor32 (perm b) (keyroundAt decBlock (seed c) c.ct.blocks i)).val :=
  blockLoop_blocks_at decBlock (seed c) c.ct hi

/-- What DECRYPT does where its precondition holds: KEYROUND runs to the end of the loop, and `unpad` of the recovered bytes
decides between OK, with PT replaced, and CorruptPadding, with PT kept (R163, R165). -/
theorem exec_decrypt_of_ready {s : State} (h : s.ctx.ready s.ctx.ctSet s.ctx.ctLen = true) :
    ∃ t r, exec .decrypt s = .next t ∧ s.Answered r t ∧
      t.ctx.keyround = (decBlocks (seed s.ctx) s.ctx.ct.blocks).2 ∧
      s.ctx.KeepsKey t.ctx ∧ s.ctx.KeepsIv t.ctx ∧ s.ctx.KeepsCt t.ctx ∧
      ((∃ m, unpad s.ctx.recovered = some m ∧ r = Response.success m.length [] ∧ t.ctx.pt = m ∧ t.ctx.ptSet = true) ∨
        (unpad s.ctx.recovered = none ∧ r = Response.failure .corruptPadding ∧ s.ctx.KeepsPt t.ctx)) := by
  rcases hu : unpad s.ctx.recovered with _ | m
  · exact ⟨_, _, effect_exec (.decCorrupt h hu), State.withCtx_give_answered _ _ _, rfl, ⟨rfl, rfl⟩, ⟨rfl, rfl⟩,
      ⟨Memory.same_refl _, rfl⟩, .inr ⟨rfl, rfl, Memory.same_refl _, rfl⟩⟩
  · exact ⟨_, _, effect_exec (.decOk m h hu), State.withCtx_give_answered _ _ _, rfl, ⟨rfl, rfl⟩, ⟨rfl, rfl⟩,
      ⟨Memory.same_refl _, rfl⟩, .inl ⟨m, rfl, rfl, rfl, rfl⟩⟩

/-- Settles O32: the keyrounds are those of the block loop over CT, T is the recovered bytes, and `unpad` accepts exactly the
sequences of the form m ++ rep(p, p), so its two answers are the two outcomes. -/
theorem decryptRecoversAndUnpadsThePlaintext : Obligations.DecryptRecoversAndUnpadsThePlaintext := by
  intro s
  refine ⟨rfl, fun hkey hiv hct hpos hwhole => ?_,
    fun h => exec_keepsAll_of_effect (.decBad (Context.ready_eq_false_of_not h))⟩
  have hlen : s.ctx.recovered.length = s.ctx.ctLen :=
    s.ctx.length_recovered.trans (Nat.mul_div_cancel' (Nat.dvd_of_mod_eq_zero hwhole))
  obtain ⟨t, r, hexec, hanswered, hround, hkeepsKey, hkeepsIv, hkeepsCt, houtcome⟩ :=
    exec_decrypt_of_ready (Context.ready_iff.2 ⟨hkey, hiv, hct, hpos, hwhole⟩)
  refine ⟨t, r, s.ctx.recovered, keyroundAt decBlock (seed s.ctx) s.ctx.ct.blocks, hexec, hanswered, hlen,
    keyroundAt_zero _ _ _, fun i hi => s.ctx.recovered_at hi, hround.trans (blockLoop_blocks_keyround _ _ _),
    hkeepsKey, hkeepsIv, hkeepsCt, fun m p h1 h32 hT => ?_, fun hno => ?_⟩
  · have hu : unpad s.ctx.recovered = some m := hT ▸ unpad_append_replicate m h1 h32
    obtain ⟨m', hu', hr, hpt, hset⟩ | ⟨hnone, -⟩ := houtcome
    · obtain rfl : m = m' := Option.some.inj (hu.symm.trans hu')
      refine ⟨hr, hpt, ?_, hset⟩
      rw [← hlen, hT, Context.ptLen_eq, hpt]
      simp
    · cases hu.symm.trans hnone
  · obtain ⟨m, hu, -⟩ | ⟨-, hcorrupt⟩ := houtcome
    · obtain ⟨p, h1, h32, hT⟩ := (unpadAcceptsExactlyWellPaddedSequences.2 _ _).1 hu
      exact absurd hT (hno m p h1 h32)
    · exact hcorrupt

/-! ## The outputs fit -/

/-- Settles O33: ENCRYPT writes as many blocks as PT has, and DECRYPT writes fewer bytes than CT has, both buffers being
within BUF_CAP by the invariant. -/
theorem cipherOutputsAlwaysFit : Obligations.CipherOutputsAlwaysFit := by
  intro s hs
  refine ⟨?_, ?_⟩
  · obtain ⟨c', r, he, hexec⟩ := exec_effect .encrypt s
    refine ⟨_, r, hexec, State.withCtx_give_answered _ _ _, ?_⟩
    cases he with
    | encBad h => exact ⟨nofun, nofun⟩
    | encOk h =>
      obtain ⟨-, -, -, -, hwhole⟩ := Context.ready_iff.1 h
      have hfits := Memory.wf_iff.1 hs.ctx.pt_fits
      have hlen := Nat.mul_div_cancel' (Nat.dvd_of_mod_eq_zero hwhole)
      refine ⟨nofun, fun _ => ?_⟩
      simp only [Context.ptLen_eq] at hlen
      simp [Memory.length_blocks, hlen, hfits]
  · obtain ⟨c', r, he, hexec⟩ := exec_effect .decrypt s
    refine ⟨_, r, hexec, State.withCtx_give_answered _ _ _, ?_⟩
    cases he with
    | decBad h => exact ⟨nofun, nofun⟩
    | decCorrupt h hu => exact ⟨nofun, nofun⟩
    | decOk m h hu =>
      have hshorter : m.length < s.ctx.recovered.length := length_lt_of_unpad hu
      rw [Context.length_recovered] at hshorter
      refine ⟨nofun, fun _ => ⟨?_, Memory.wf_iff.1 hs.ctx.ct_fits⟩⟩
      show m.length < s.ctx.ct.length
      omega

end Machine

end Sys2Proof
end

section
/-! Proofs of the statements on the context commands: INIT, the four setters, GET_PT, GET_CT and STAT (rules R180 to R192). -/

namespace Sys2Proof

/-! ## Buffers read whole, and numbers written as bytes -/

/-- Reading the whole of a buffer gives its bytes (R14). -/
@[simp] theorem Memory.read?_zero_length (m : Memory) : m.read? 0 m.length = some m := by
  simp [Memory.read?]

/-- A buffer of a legal BUF_CAP has a length that fits 24 bits (R9). -/
theorem Memory.length_lt_of_wf {cfg : Config} {m : Memory} (hcfg : cfg.wf = true) (h : m.wf cfg = true) :
    m.length < 16777216 := by
  rw [Memory.wf_iff] at h
  simp only [Config.wf, Bool.and_eq_true, decide_eq_true_eq] at hcfg
  omega

/-- The bytes of a number that they can hold, read low byte first, are that number. -/
theorem Machine.natOfBytes_bytesOfNat {n v : Nat} (h : v < 256 ^ n) : natOfBytes (bytesOfNat n v) = v := by
  induction n generalizing v with
  | zero => exact (Nat.lt_one_iff.1 h).symm
  | succ n ih =>
    have hq : v / 256 < 256 ^ n := Nat.div_lt_of_lt_mul (by rwa [Nat.pow_succ'] at h)
    rw [bytesOfNat, natOfBytes, ih hq, BitVec.toNat_ofNat]
    omega

/-- The three bytes of a number below 2^24, weighted low byte first, add up to it (R192). -/
theorem Machine.sum_three_bytes {v : Nat} (h : v < 16777216) :
    (BitVec.ofNat 8 v).toNat + 256 * (BitVec.ofNat 8 (v / 256)).toNat +
      65536 * (BitVec.ofNat 8 (v / 256 / 256)).toNat = v := by
  have := natOfBytes_bytesOfNat (n := 3) h
  simp only [bytesOfNat, natOfBytes] at this
  omega

namespace Machine

/-! ## INIT -/

/-- Every flag that is set stays set (R27). -/
def Context.KeepsSetFlags (c d : Context) : Prop :=
  (c.keySet = true → d.keySet = true) ∧ (c.ivSet = true → d.ivSet = true) ∧
    (c.ptSet = true → d.ptSet = true) ∧ (c.ctSet = true → d.ctSet = true)

/-- No command but INIT unsets a field (R180). -/
theorem Effect.keepsSetFlags {cfg : Config} {c c' : Context} {i : Instr} {r : Response} (he : Effect cfg c i c' r)
    (hi : i ≠ .init) : c.KeepsSetFlags c' := by
  cases he
  case init => exact absurd rfl hi
  case keyOk => exact ⟨fun _ => rfl, id, id, id⟩
  case ivOk => exact ⟨id, fun _ => rfl, id, id⟩
  case ptOk | decOk => exact ⟨id, id, fun _ => rfl, id⟩
  case ctOk | encOk => exact ⟨id, id, id, fun _ => rfl⟩
  all_goals exact ⟨id, id, id, id⟩

/-- Settles O21: INIT's only effect is the empty context, and every other effect keeps the flags that are set. -/
theorem initEmptiesTheContext : Obligations.InitEmptiesTheContext := by
  intro s
  refine ⟨rfl, ⟨_, effect_exec .init, State.withCtx_give_answered _ _ _, rfl, rfl, rfl, rfl, rfl, rfl, rfl, rfl, rfl,
    rfl, rfl, rfl⟩, fun i u hexec hunset => ?_⟩
  by_contra hi
  obtain ⟨c', r, he, rfl⟩ := exec_next hexec
  obtain ⟨hkey, hiv, hpt, hct⟩ := he.keepsSetFlags hi
  rcases hunset with ⟨hset, hclear⟩ | ⟨hset, hclear⟩ | ⟨hset, hclear⟩ | ⟨hset, hclear⟩
  · exact Bool.eq_false_iff.1 hclear (hkey hset)
  · exact Bool.eq_false_iff.1 hclear (hiv hset)
  · exact Bool.eq_false_iff.1 hclear (hpt hset)
  · exact Bool.eq_false_iff.1 hclear (hct hset)

/-! ## The setters -/

/-- Settles O22: the two effects of SET_KEY. -/
theorem setKeySetsTheKeyOrChangesNothing : Obligations.SetKeySetsTheKeyOrChangesNothing := fun pl _ =>
  ⟨commandWord_toNat pl.len _,
    fun h => ⟨_, effect_exec (.keyOk pl h), State.withCtx_give_answered _ _ _, rfl, rfl, ⟨rfl, rfl⟩, rfl,
      ⟨Memory.same_refl _, rfl⟩, ⟨Memory.same_refl _, rfl⟩⟩,
    fun h => exec_keepsAll_of_effect (.keyBad pl h)⟩

/-- Settles O23: the two effects of SET_IV. -/
theorem setIvSetsTheIvOrChangesNothing : Obligations.SetIvSetsTheIvOrChangesNothing := fun pl _ =>
  ⟨commandWord_toNat pl.len _,
    fun h => ⟨_, effect_exec (.ivOk pl h), State.withCtx_give_answered _ _ _, rfl, rfl, ⟨rfl, rfl⟩, rfl,
      ⟨Memory.same_refl _, rfl⟩, ⟨Memory.same_refl _, rfl⟩⟩,
    fun h => exec_keepsAll_of_effect (.ivBad pl h)⟩

/-- Settles O24: the three effects of SET_PT; a LEN above a BUF_CAP of at least 32 is not too short (R183). -/
theorem setPtReplacesThePlaintextOrChangesNothing : Obligations.SetPtReplacesThePlaintextOrChangesNothing := fun pl _ =>
  ⟨commandWord_toNat pl.len _,
    fun ⟨h32, hcap⟩ => ⟨_, effect_exec (.ptOk pl h32 hcap), State.withCtx_give_answered _ _ _, rfl, pl.bytes_length,
      rfl, ⟨rfl, rfl⟩, ⟨rfl, rfl⟩, rfl, ⟨Memory.same_refl _, rfl⟩⟩,
    fun h => exec_keepsAll_of_effect (.ptShort pl h),
    fun ⟨hcap32, hcap⟩ => exec_keepsAll_of_effect (.ptBig pl (hcap32.trans hcap.le) hcap)⟩

/-- Settles O25: the three effects of SET_CT; a LEN above a BUF_CAP of at least 32 is not too short (R184). -/
theorem setCtReplacesTheCiphertextOrChangesNothing : Obligations.SetCtReplacesTheCiphertextOrChangesNothing :=
  fun pl _ =>
  ⟨commandWord_toNat pl.len _,
    fun ⟨h32, hcap⟩ => ⟨_, effect_exec (.ctOk pl h32 hcap), State.withCtx_give_answered _ _ _, rfl, pl.bytes_length,
      rfl, ⟨rfl, rfl⟩, ⟨rfl, rfl⟩, rfl, ⟨Memory.same_refl _, rfl⟩⟩,
    fun h => exec_keepsAll_of_effect (.ctShort pl h),
    fun ⟨hcap32, hcap⟩ => exec_keepsAll_of_effect (.ctBig pl (hcap32.trans hcap.le) hcap)⟩

/-! ## GET_PT and GET_CT -/

/-- Settles O26: the data is PT itself, which the invariant keeps empty while it is unset. -/
theorem getPtReturnsThePlaintext : Obligations.GetPtReturnsThePlaintext := by
  intro s
  refine ⟨rfl, _, s.ctx.pt, effect_exec .getPt, State.withCtx_give_answered _ _ _, Memory.read?_zero_length _,
    Context.keepsAll_refl _, fun hs hunset => ?_⟩
  have hlen := hs.ctx.pt_unset hunset
  exact ⟨hlen, List.eq_nil_of_length_eq_zero hlen⟩

/-- Settles O27: the data is CT itself, which the invariant keeps empty while it is unset. -/
theorem getCtReturnsTheCiphertext : Obligations.GetCtReturnsTheCiphertext := by
  intro s
  refine ⟨rfl, _, s.ctx.ct, effect_exec .getCt, State.withCtx_give_answered _ _ _, Memory.read?_zero_length _,
    Context.keepsAll_refl _, fun hs hunset => ?_⟩
  have hlen := hs.ctx.ct_unset hunset
  exact ⟨hlen, List.eq_nil_of_length_eq_zero hlen⟩

/-! ## STAT -/

/-- FLAGS, bit by bit: the four flags in bits 3:0 and zeros above (R28). -/
theorem Context.flags_bits (c : Context) :
    c.flags.getLsbD 0 = c.keySet ∧ c.flags.getLsbD 1 = c.ivSet ∧ c.flags.getLsbD 2 = c.ptSet ∧
      c.flags.getLsbD 3 = c.ctSet ∧ c.flags.toNat < 16 := by
  unfold Context.flags
  generalize c.keySet = k, c.ivSet = v, c.ptSet = p, c.ctSet = t
  revert k v p t
  decide

/-- Settles O28: FLAGS holds the four flags, and both lengths fit their three bytes, BUF_CAP being legal. -/
theorem statReturnsFlagsAndLengths : Obligations.StatReturnsFlagsAndLengths := by
  intro s hs
  obtain ⟨hkey, hiv, hpt, hct, hreserved⟩ := s.ctx.flags_bits
  exact ⟨rfl, _, s.ctx.flags, _, _, _, _, _, _, effect_exec .stat, State.withCtx_give_answered _ _ _,
    Context.keepsAll_refl _, hkey, hiv, hpt, hct, hreserved,
    sum_three_bytes (Memory.length_lt_of_wf hs.cfg_wf hs.ctx.pt_fits),
    sum_three_bytes (Memory.length_lt_of_wf hs.cfg_wf hs.ctx.ct_fits)⟩

end Machine

end Sys2Proof
end

section
/-! Proofs of the statement on the errors: which command raises which error, and on what condition (rule R210). -/

namespace Sys2Proof.Machine

/-! ## Raising an error -/

/-- Command `i` in context `c` raises error `e`: one of its effects answers that error (R210). -/
def Raises (cfg : Config) (c : Context) (i : Instr) (e : Error) : Prop := ∃ d, Effect cfg c i d (.failure e)

/-- A command has one effect, so its response has the status of an error exactly when it raises that error. -/
theorem Effect.status_eq_error_iff {cfg : Config} {c c' : Context} {i : Instr} {r : Response} (he : Effect cfg c i c' r)
    (e : Error) : r.status = .error e ↔ Raises cfg c i e := by
  constructor
  · intro hr
    rcases he.ok_or_failure with hok | ⟨e', rfl⟩
    · cases hok.symm.trans hr
    · cases hr
      exact ⟨c', he⟩
  · rintro ⟨d, hd⟩
    obtain ⟨-, rfl⟩ := he.unique hd
    rfl

section Causes
variable {cfg : Config} {c : Context} {i : Instr}

theorem raises_invalidLength_iff :
    Raises cfg c i .invalidLength ↔ ∃ pl, (i = .setKey pl ∨ i = .setIv pl) ∧ pl.len.toNat ≠ 32 := by
  constructor
  · rintro ⟨d, hd⟩
    cases hd with
    | keyBad pl h => exact ⟨pl, .inl rfl, h⟩
    | ivBad pl h => exact ⟨pl, .inr rfl, h⟩
  · rintro ⟨pl, rfl | rfl, h⟩
    · exact ⟨_, .keyBad pl h⟩
    · exact ⟨_, .ivBad pl h⟩

theorem raises_tooShort_iff :
    Raises cfg c i .tooShort ↔ ∃ pl, (i = .setPt pl ∨ i = .setCt pl) ∧ pl.len.toNat < 32 := by
  constructor
  · rintro ⟨d, hd⟩
    cases hd with
    | ptShort pl h => exact ⟨pl, .inl rfl, h⟩
    | ctShort pl h => exact ⟨pl, .inr rfl, h⟩
  · rintro ⟨pl, rfl | rfl, h⟩
    · exact ⟨_, .ptShort pl h⟩
    · exact ⟨_, .ctShort pl h⟩

theorem raises_missingInput_iff :
    Raises cfg c i .missingInput ↔
      (i = .encrypt ∧ c.ready c.ptSet c.ptLen = false) ∨ (i = .decrypt ∧ c.ready c.ctSet c.ctLen = false) := by
  constructor
  · rintro ⟨d, hd⟩
    cases hd with
    | encBad h => exact .inl ⟨rfl, h⟩
    | decBad h => exact .inr ⟨rfl, h⟩
  · rintro (⟨rfl, h⟩ | ⟨rfl, h⟩)
    · exact ⟨_, .encBad h⟩
    · exact ⟨_, .decBad h⟩

theorem raises_corruptPadding_iff :
    Raises cfg c i .corruptPadding ↔
      i = .decrypt ∧ c.ready c.ctSet c.ctLen = true ∧ unpad c.recovered = none := by
  constructor
  · rintro ⟨d, hd⟩
    cases hd with
    | decCorrupt h hu => exact ⟨rfl, h, hu⟩
  · rintro ⟨rfl, h, hu⟩
    exact ⟨_, .decCorrupt h hu⟩

/-- A legal BUF_CAP holds at least one block, so a LEN above it is not too short, and whole blocks, so a padded payload
overflows it exactly when LEN reaches it (R9, R214). -/
theorem raises_outOfMemory_iff (hcfg : cfg.wf = true) :
    Raises cfg c i .outOfMemory ↔
      ∃ pl, ((i = .setPt pl ∨ i = .setCt pl) ∧ pl.len.toNat > cfg.bufCap) ∨
        (i = .pad pl ∧ pl.len.toNat ≥ cfg.bufCap) := by
  simp only [Config.wf, Bool.and_eq_true, beq_iff_eq, decide_eq_true_eq] at hcfg
  obtain ⟨⟨hblocks, h32⟩, -⟩ := hcfg
  have hpad := add_padCount_le_iff hblocks
  constructor
  · rintro ⟨d, hd⟩
    cases hd with
    | ptBig pl _ h => exact ⟨pl, .inl ⟨.inl rfl, h⟩⟩
    | ctBig pl _ h => exact ⟨pl, .inl ⟨.inr rfl, h⟩⟩
    | padBig pl h => exact ⟨pl, .inr ⟨rfl, not_lt.1 (mt (hpad _).2 h.not_ge)⟩⟩
  · rintro ⟨pl, ⟨rfl | rfl, h⟩ | ⟨rfl, h⟩⟩
    · exact ⟨_, .ptBig pl (h32.trans h.le) h⟩
    · exact ⟨_, .ctBig pl (h32.trans h.le) h⟩
    · exact ⟨_, .padBig pl (not_le.1 (mt (hpad _).1 h.not_gt))⟩

theorem not_raises_illegalCommand : ¬ Raises cfg c i .illegalCommand := by
  rintro ⟨d, hd⟩
  cases hd

end Causes

/-! ## The bytes of corrupt padding -/

/-- A sequence ends in `n` bytes of value `p` exactly when each of its last `n` bytes, counted from the end, is `p`. -/
theorem replicate_suffix_iff_byteAt? {s : Memory} {n : Nat} (h : n ≤ s.length) (p : Byte) :
    List.replicate n p <:+ s ↔ ∀ k < n, s.byteAt? (s.length - 1 - k) = some p := by
  simp only [List.suffix_iff_getElem?, List.length_replicate, List.getElem_replicate, h, true_and, Memory.byteAt?]
  constructor
  · intro hs k hk
    have hlast := hs (n - 1 - k) (by omega)
    rwa [show n - 1 - k + s.length - n = s.length - 1 - k by omega] at hlast
  · intro hs i hi
    have hlast := hs (n - 1 - i) (by omega)
    rwa [show s.length - 1 - (n - 1 - i) = i + s.length - n by omega] at hlast

/-- `unpad` rejects a sequence of at least a block exactly when its last byte is no pad count or one of the bytes it
counts has another value (R102). -/
theorem unpad_eq_none_iff {s : Memory} (h : 32 ≤ s.length) :
    unpad s = none ↔ ∀ p : Byte, s.getLast? = some p →
      ¬ (1 ≤ p.toNat ∧ p.toNat ≤ 32) ∨ ∃ k < p.toNat, s.byteAt? (s.length - 1 - k) ≠ some p := by
  obtain ⟨p, hp⟩ : ∃ p, s.getLast? = some p :=
    ⟨_, List.getLast?_eq_some_getLast (List.ne_nil_of_length_pos (by omega))⟩
  have hreject : unpad s = none ↔ ¬ paddingOk s p = true := by simp [unpad, hp]
  simp only [hreject, paddingOk_iff, ← and_assoc, not_and_or (b := _ <:+ _), hp, Option.some.injEq, forall_eq']
  refine or_congr_right' fun hrange => ?_
  rw [replicate_suffix_iff_byteAt? (by omega)]
  simp only [not_forall, exists_prop, ne_eq]

/-- DECRYPT recovers as many bytes as CT has, at least a block of them, where its precondition holds (R160, R163). -/
theorem Context.length_recovered_of_ready {c : Context} (h : c.ready c.ctSet c.ctLen = true) :
    c.recovered.length = c.ctLen ∧ 32 ≤ c.ctLen := by
  obtain ⟨-, -, -, hpos, hwhole⟩ := Context.ready_iff.1 h
  rw [c.length_recovered, ← c.ctLen_eq]
  omega

/-- Where DECRYPT has its inputs, `unpad` rejects what it recovers exactly on R210's condition for CorruptPadding. -/
theorem Context.unpad_recovered_eq_none_iff (c : Context) (h : c.ready c.ctSet c.ctLen = true) :
    unpad c.recovered = none ↔ ∀ p : Byte, c.recovered.getLast? = some p →
      ¬ (1 ≤ p.toNat ∧ p.toNat ≤ 32) ∨ ∃ k < p.toNat, c.recovered.byteAt? (c.ctLen - 1 - k) ≠ some p := by
  obtain ⟨hlen, h32⟩ := Context.length_recovered_of_ready h
  rw [← hlen] at h32 ⊢
  exact unpad_eq_none_iff h32

/-! ## The table of errors -/

/-- The step that takes a command answers IllegalCommand exactly where the word is one of R78 and R79. -/
theorem step_illegalCommand_iff {s t : State} {c : Command} {rest : List HostMove} {r : Response}
    (hin : s.inbox = .command c :: rest) (hstep : step s = .next t) (hout : t.outbox = s.outbox ++ [r]) :
    r.status = .error .illegalCommand ↔ IllegalWord c.word := by
  rcases hd : decode c with i | why
  · obtain ⟨d, r', he, rfl⟩ := exec_next ((step_of_decode_legal hin hd).symm.trans hstep)
    obtain rfl : r' = r := by simpa using hout
    rw [he.status_eq_error_iff]
    exact iff_of_false not_raises_illegalCommand ((exists_decode_legal_iff c).1 ⟨i, hd⟩)
  · cases (step_of_decode_illegal hin hd).symm.trans hstep
    obtain rfl : Response.failure .illegalCommand = r := by simpa using hout
    exact iff_of_true rfl (decode_illegal hd)

/-- Settles O18: a command's response has the status of an error exactly when one of its effects is that error; the
causes are read off the effects, error by error, and IllegalCommand is left to the decoder. -/
theorem eachErrorHasExactlyItsCause : Obligations.EachErrorHasExactlyItsCause := by
  refine ⟨fun i s t r hcfg hexec hans => ?_, fun _ _ _ _ _ => step_illegalCommand_iff, rfl, rfl, rfl, rfl, rfl, rfl⟩
  obtain ⟨d, r', he, rfl⟩ := exec_next hexec
  obtain rfl := hans.eq
  simp only [he.status_eq_error_iff, ne_eq]
  refine ⟨raises_invalidLength_iff, raises_tooShort_iff, ?_, ?_, raises_outOfMemory_iff hcfg,
    not_raises_illegalCommand⟩
  · simp only [raises_missingInput_iff, Context.ready_eq_false_iff]
  · rw [raises_corruptPadding_iff, and_congr_right s.ctx.unpad_recovered_eq_none_iff, Context.ready_iff]
    simp only [and_assoc, Nat.pos_iff_ne_zero, ne_eq]

end Sys2Proof.Machine
end

section
/-! Proofs of the statements on the encoder, the assembled lines and the byte streams (rules R53, R71 to R83). -/

namespace Sys2Proof

/-! ## Encoder and decoder -/

/-- The payload read from an instruction's command is the instruction's payload. -/
theorem toPayload_encode (i : Instr) : (encode i).toPayload = i.payload := by
  have hlen : lenField (encode i).word = i.payload.len := lenField_commandWord _ _
  simp only [Command.toPayload, hlen]
  rfl

/-- The decoder picks the instruction back by its opcode (R73). -/
theorem decode_encode (i : Instr) : decode (encode i) = .legal i := by
  have hopc : opcField (encode i).word = i.opc := opcField_commandWord _ _
  unfold decode
  rw [hopc, toPayload_encode]
  cases i <;> rfl

/-- Settles O1. -/
theorem decodeOfEncodeIsTheInstruction : Obligations.DecodeOfEncodeIsTheInstruction := decode_encode

/-- A command is an instruction's encoding where its word and payload bytes are. -/
theorem encode_eq {c : Command} {i : Instr} (hword : i.word = c.word) (hpl : i.payload.bytes = c.payload) :
    encode i = c := by
  obtain ⟨w, pl, hlen⟩ := c
  subst hword hpl
  rfl

/-- Settles O2: the decoded instruction has the opcode and the payload of the command, and a word is the word of its two
fields. -/
theorem encodeOfDecodeIsTheCommand : Obligations.EncodeOfDecodeIsTheCommand := by
  intro c i hd
  obtain ⟨hopc, hpl⟩ := decode_legal hd
  have hopc' : i.opc = opcField c.word := BitVec.eq_of_toNat_eq (by rw [opcField_toNat, hopc])
  have hlen : i.payload.len = lenField c.word := congrArg Payload.len hpl
  refine encode_eq ?_ (congrArg Payload.bytes hpl)
  rw [Instr.word, hlen, hopc', commandWord_fields]

/-! ## The worked encodings -/

/-- A word of a format N instruction encodes it, and no other command has that word: LEN is 0, so there is no payload
(R79). -/
theorem formatN_encodes {w : Word} {i : Instr} (hN : i.opc.toNat ∈ formatNOpcodes) (hword : i.word = w) :
    (encode i).word = w ∧ ∀ c : Command, c.word = w → decode c = .legal i := by
  subst hword
  refine ⟨rfl, fun c hc => ?_⟩
  have hempty := Instr.payload_of_formatN hN
  have hlen : c.payload.length = 0 := by
    rw [c.payload_length, hc, Instr.word, lenField_commandWord, hempty]
    rfl
  have henc : encode i = c :=
    encode_eq hc.symm (by rw [hempty, List.eq_nil_of_length_eq_zero hlen]; rfl)
  rw [← henc, decode_encode]

/-- `mk` is the format P command of opcode `opc`: it carries any payload given to it (R73). -/
def IsFormatP (opc : Byte) (mk : Payload → Instr) : Prop := ∀ pl, (mk pl).opc = opc ∧ (mk pl).payload = pl

/-- A command with the opcode of a format P instruction decodes to it, with the payload as it is. -/
theorem IsFormatP.decode_eq {mk : Payload → Instr} {c : Command} (hP : IsFormatP (opcField c.word) mk) :
    decode c = .legal (mk c.toPayload) := by
  obtain ⟨hopc, hpl⟩ := hP c.toPayload
  have hc : encode (mk c.toPayload) = c := by
    refine encode_eq ?_ (congrArg Payload.bytes hpl)
    rw [Instr.word, hopc, hpl]
    exact commandWord_fields c.word
  rw [← hc, decode_encode, hc]

/-- A word whose fields are `len` and the opcode of a format P command encodes that command with every payload of LEN =
`len`, and no other command has that word. -/
theorem IsFormatP.encodes {w : Word} {len : BitVec 24} {mk : Payload → Instr} (hP : IsFormatP (opcField w) mk)
    (hlen : lenField w = len) :
    (∀ pl : Payload, pl.len = len → (encode (mk pl)).word = w) ∧
      ∀ c : Command, c.word = w → ∃ pl, decode c = .legal (mk pl) ∧ pl.len = len ∧ pl.bytes = c.payload := by
  subst hlen
  constructor
  · intro pl hpl
    obtain ⟨hopc, hpayload⟩ := hP pl
    show commandWord (mk pl).payload.len (mk pl).opc = w
    rw [hopc, hpayload, hpl, commandWord_fields]
  · rintro c rfl
    exact ⟨c.toPayload, hP.decode_eq, rfl, rfl⟩

/-- A word of R78 and R79 decodes to no command. -/
theorem exists_decode_illegal {c : Command} (h : IllegalWord c.word) : ∃ why, decode c = .illegal why := by
  rcases hd : decode c with i | why
  · exact absurd h ((exists_decode_legal_iff c).1 ⟨i, hd⟩)
  · exact ⟨why, rfl⟩

/-- The five illegal words of 95_test_vectors.md 2.8. -/
theorem illegalWord_of_worked :
    ∀ w ∈ [(0x00000000 : Word), 0x0000020C, 0x000000FF, 0x00000101, 0x0000010B], IllegalWord w := by
  simp only [List.forall_mem_cons]
  exact ⟨.inl rfl, .inr (.inl (by decide)), .inr (.inl (by decide)), .inr (.inr ⟨by decide, by decide⟩),
    .inr (.inr ⟨by decide, by decide⟩), nofun⟩

/-- Settles O5: the format N words row by row, the format P words by their two fields, and the illegal words by R78 and
R79. -/
theorem workedEncodings : Obligations.WorkedEncodings := by
  refine ⟨?formatN, ?formatP, fun c hc => exists_decode_illegal (illegalWord_of_worked _ hc), by decide, by decide,
    by decide⟩
  case formatN =>
    simp only [List.forall_mem_cons]
    exact ⟨formatN_encodes (by decide) rfl, formatN_encodes (by decide) rfl, formatN_encodes (by decide) rfl,
      formatN_encodes (by decide) rfl, formatN_encodes (by decide) rfl, formatN_encodes (by decide) rfl, nofun⟩
  case formatP =>
    simp only [List.forall_mem_cons]
    exact ⟨IsFormatP.encodes (fun _ => ⟨rfl, rfl⟩) rfl, IsFormatP.encodes (fun _ => ⟨rfl, rfl⟩) rfl,
      IsFormatP.encodes (fun _ => ⟨rfl, rfl⟩) rfl, IsFormatP.encodes (fun _ => ⟨rfl, rfl⟩) rfl,
      IsFormatP.encodes (fun _ => ⟨rfl, rfl⟩) rfl, nofun⟩

/-! ## Commands as byte streams -/

theorem length_wordBytes (w : Word) : (wordBytes w).length = 4 := rfl

/-- Reading a command from the four bytes of its word and at least LEN bytes more (R53, R72). -/
theorem parse_wordBytes_append {w : Word} {l : List Byte} (h : (lenField w).toNat ≤ l.length) :
    parse (wordBytes w ++ l) =
      .command ⟨w, l.take (lenField w).toNat, by simp [h]⟩ (l.drop (lenField w).toNat) := by
  simp [wordBytes, parse, wordOfBytes_extract, h]

/-- Settles O6: the four bytes of the word give it back, and its LEN says where the payload ends. -/
theorem serialisedCommandsAreReadBack : Obligations.SerialisedCommandsAreReadBack := by
  intro c rest
  have hlen := c.payload_length
  constructor
  · rw [Command.serialise, List.append_assoc, parse_wordBytes_append (by simp [hlen])]
    simp [← hlen]
  · rw [Command.serialise, List.length_append, hlen, lenField_toNat, length_wordBytes]

/-! ## Assembled lines -/

namespace Machine

/-- The opcode of a mnemonic is no reserved one, and is of format N exactly where the mnemonic takes no payload (R73). -/
theorem Mnemonic.opc_spec (m : Mnemonic) :
    1 ≤ m.opc.toNat ∧ m.opc.toNat ≤ 0x0B ∧ (m.opc.toNat ∈ formatNOpcodes ↔ m.takesPayload = false) := by
  cases m <;> decide

/-- What R83 asks of a line: ASCII texts, no payload for format N, and a payload that LEN can count. -/
theorem Line.ok_iff (l : Line) :
    l.ok = true ↔ l.items.all Item.ascii = true ∧ (l.mnemonic.takesPayload = false → l.payload = []) ∧
      l.payload.length < 16777216 := by
  simp only [Line.ok, Bool.and_eq_true, Bool.or_eq_true, decide_eq_true_eq, List.isEmpty_iff, fitsLen, and_assoc,
    or_iff_not_imp_left, Bool.not_eq_true]

/-- Settles O8: the word of a line of R83 has its mnemonic's opcode, with LEN = 0 for format N, so it is legal, and
what it decodes to has that opcode and the line's payload. -/
theorem assembledLinesDecodeToTheirCommand : Obligations.AssembledLinesDecodeToTheirCommand := by
  intro l
  refine ⟨fun h => dif_neg (Bool.not_eq_true _ ▸ h), fun h => ?_⟩
  obtain ⟨-, hbare, hfits⟩ := l.ok_iff.1 h
  obtain ⟨hpos, hle, hformat⟩ := l.mnemonic.opc_spec
  have hcmd : ∃ c : Command, l.command? = some c ∧
      c.word = commandWord (BitVec.ofNat 24 l.payload.length) l.mnemonic.opc ∧ c.payload = l.payload :=
    ⟨_, dif_pos h, rfl, rfl⟩
  obtain ⟨c, hc, hword, hpl⟩ := hcmd
  have hnat : c.word.toNat = l.payload.length * 256 + l.mnemonic.opc.toNat := by
    rw [hword, commandWord_toNat, BitVec.toNat_ofNat, Nat.mod_eq_of_lt hfits]
  have hlegal : ¬ IllegalWord c.word := by
    rintro (h0 | h12 | ⟨hN, hlen⟩)
    · omega
    · omega
    · rw [show c.word.toNat % 256 = l.mnemonic.opc.toNat by omega, hformat] at hN
      have := congrArg List.length (hbare hN)
      simp only [List.length_nil] at this
      omega
  obtain ⟨i, hd⟩ := (exists_decode_legal_iff c).2 hlegal
  obtain ⟨hopc, hpayload⟩ := decode_legal hd
  exact ⟨c, i, hc, hnat, hpl, hd, BitVec.eq_of_toNat_eq (by omega), (congrArg Payload.bytes hpayload).trans hpl⟩

/-! ## Responses as byte streams -/

/-- The first byte of a response is its status, and the three after it are COUNT, low byte first (R53, R75). -/
theorem Response.word_bytes {r : Response} (h : r.count < 16777216) :
    r.word.extractLsb' 0 8 = r.status.code ∧
      (r.word.extractLsb' 8 8).toNat + 256 * (r.word.extractLsb' 16 8).toNat +
        65536 * (r.word.extractLsb' 24 8).toNat = r.count := by
  have hword := Response.word_toNat h
  have hcode := r.status.code.isLt
  constructor
  · apply BitVec.eq_of_toNat_eq
    simp only [BitVec.extractLsb'_toNat, hword, Nat.shiftRight_eq_div_pow]
    omega
  · simp only [BitVec.extractLsb'_toNat, hword, Nat.shiftRight_eq_div_pow]
    omega

/-- A response without data takes 4 bytes, another 4 + COUNT (R76). -/
theorem Response.WellFormed.length_serialise {r : Response} (h : r.WellFormed) :
    r.serialise.length = if r.data = [] then 4 else 4 + r.count := by
  have hlen : r.serialise.length = 4 + r.data.length := by
    rw [Response.serialise, List.length_append, length_wordBytes]
  by_cases hd : r.data = []
  · simp [hlen, hd]
  · rw [if_neg hd, hlen, h.data_counted.resolve_left hd]

/-- The bytes of a word give it back, so no two words have the same bytes (R53). -/
theorem wordBytes_injective {v w : Word} (h : wordBytes v = wordBytes w) : v = w := by
  simp only [wordBytes, List.cons.injEq, and_true] at h
  obtain ⟨h0, h1, h2, h3⟩ := h
  rw [← wordOfBytes_extract v, ← wordOfBytes_extract w, h0, h1, h2, h3]

/-- The word of a well-formed response determines its status and its COUNT (R75, R77). -/
theorem Response.WellFormed.status_count_eq {q r : Response} (hq : q.WellFormed) (hr : r.WellFormed)
    (h : q.word = r.word) : q.status = r.status ∧ q.count = r.count := by
  have hword : q.count * 256 + q.status.code.toNat = r.count * 256 + r.status.code.toNat := by
    rw [← Response.word_toNat hq.count_fits, ← Response.word_toNat hr.count_fits, h]
  have hqc := q.status.code.isLt
  have hrc := r.status.code.isLt
  have hcode : q.status.code.toNat = r.status.code.toNat := by omega
  exact ⟨Status.code_injective (BitVec.eq_of_toNat_eq hcode), by omega⟩

/-- Settles O55: the first four bytes give status and COUNT, and COUNT says where the data ends, once it is known whether
there is data. -/
theorem serialisedResponsesAreReadBack : Obligations.SerialisedResponsesAreReadBack := by
  intro r rest hr
  obtain ⟨hstatus, hcount⟩ := Response.word_bytes hr.count_fits
  refine ⟨⟨r.word.extractLsb' 8 8, r.word.extractLsb' 16 8, r.word.extractLsb' 24 8, ?_, ?_, hcount,
    hr.length_serialise⟩, fun q more hq hdata hbytes => ?_⟩
  · rw [← hstatus]
    rfl
  · rw [← hstatus, wordOfBytes_extract]
  · simp only [Response.serialise, List.append_assoc] at hbytes
    obtain ⟨hword, htail⟩ := List.append_inj hbytes (by simp only [length_wordBytes])
    obtain ⟨hs, hc⟩ := hq.status_count_eq hr (wordBytes_injective hword)
    have hlen : q.data.length = r.data.length := by
      by_cases hd : r.data = []
      · rw [hd, hdata.2 hd]
      · rw [hr.data_counted.resolve_left hd, hq.data_counted.resolve_left (mt hdata.1 hd), hc]
    obtain ⟨hqr, hmore⟩ := List.append_inj htail hlen
    obtain ⟨sq, cq, dq⟩ := q
    obtain ⟨sr, cr, dr⟩ := r
    simp only at hs hc hqr
    subst hs hc hqr
    exact ⟨rfl, hmore⟩

end Machine

end Sys2Proof
end

section
/-! Proofs of the statements on padded lengths, blocks as numbers and reads, perm by index, and the chaining (rules R51 to
R54, R101, R104, R123 to R147). -/

namespace Sys2Proof

/-! ## The padding codec -/

namespace Machine

/-- Settles O38: the appended bytes are all the pad count, which completes the length to the next multiple of 32. -/
theorem paddedLengthIsTheNextMultiple : Obligations.PaddedLengthIsTheNextMultiple := by
  intro s
  have hpos := padCount_pos s.length
  have hle := padCount_le s.length
  have hbyte := toNat_padByte hle
  rw [length_pad]
  refine ⟨by unfold padCount; omega, fun k hk hlt => ⟨BitVec.ofNat 8 (padCount s.length), ?_, ?_, ?_, ?_⟩⟩
  · rw [pad, List.getElem?_append_right hk, List.getElem?_replicate_of_lt (by omega)]
  · omega
  · omega
  · omega

/-- Settles O40: a padded sequence ends in as many bytes of value n as its pad count n says. -/
theorem unpadInvertsPad : Obligations.UnpadInvertsPad := fun s =>
  unpad_append_replicate s (padCount_pos s.length) (padCount_le s.length)

/-! ## A block as one number -/

theorem natOfBytes_lt (l : List Byte) : natOfBytes l < 2 ^ (8 * l.length) := by
  induction l with
  | nil => simp [natOfBytes]
  | cons b bs ih =>
    have := b.isLt
    rw [natOfBytes, List.length_cons, Nat.mul_succ, Nat.pow_add]
    omega

/-- Byte k of a sequence is the k-th digit of its number in base 256 (R53). -/
theorem getElem?_eq_digit {l : List Byte} {k : Nat} (h : k < l.length) :
    l[k]? = some (BitVec.ofNat 8 (natOfBytes l / 2 ^ (8 * k))) := by
  induction l generalizing k with
  | nil => simp at h
  | cons b bs ih =>
    cases k with
    | zero =>
      have hb : BitVec.ofNat 8 (natOfBytes (b :: bs)) = b := by
        apply BitVec.eq_of_toNat_eq
        have := b.isLt
        simp only [natOfBytes, BitVec.toNat_ofNat]
        omega
      simp [hb]
    | succ k =>
      have hdiv : natOfBytes (b :: bs) / 2 ^ (8 * (k + 1)) = natOfBytes bs / 2 ^ (8 * k) := by
        have := b.isLt
        rw [Nat.mul_succ, Nat.pow_add, Nat.mul_comm, ← Nat.div_div_eq_div_mul, natOfBytes]
        congr 1
        omega
      rw [List.getElem?_cons_succ, ih (Nat.lt_of_succ_lt_succ h), hdiv]

/-- Settles O7: a block's number fits 256 bits, and its digits in base 256 are its bytes. -/
theorem blockValueHoldsByteKAtBit8k : Obligations.BlockValueHoldsByteKAtBit8k := by
  intro b k hk
  have hfits : natOfBytes b.val < 2 ^ 256 := by
    have := natOfBytes_lt b.val
    rwa [b.property] at this
  rw [getElem?_eq_digit (b.property.symm ▸ hk)]
  congr 1
  apply BitVec.eq_of_toNat_eq
  rw [BitVec.extractLsb'_toNat, blockValue, BitVec.toNat_ofNat, BitVec.toNat_ofNat, Nat.mod_eq_of_lt hfits,
    Nat.shiftRight_eq_div_pow]

end Machine

/-! ## Blocks as aligned reads -/

/-- Byte k of a read is the byte of the buffer k places after its address (R14). -/
theorem Memory.byteAt?_of_read? {m : Memory} {addr n k : Nat} {l : List Byte} (h : m.read? addr n = some l)
    (hk : k < n) : m.byteAt? (addr + k) = l[k]? := by
  simp only [Memory.read?, Option.ite_none_right_eq_some, Option.some.injEq] at h
  obtain ⟨-, rfl⟩ := h
  rw [List.getElem?_take_of_lt hk, List.getElem?_drop]
  rfl

/-- Settles O47. -/
theorem blocksAreTheAlignedReads : Obligations.BlocksAreTheAlignedReads := by
  intro m
  refine ⟨m.length_blocks, fun i hi => ?_, fun k hk => List.getElem?_eq_none hk,
    fun a n h => if_neg (Nat.not_le.2 h)⟩
  have hb := List.getElem?_eq_getElem (m.length_blocks.symm ▸ hi)
  have hread := Memory.read?_of_getElem?_blocks hb
  exact ⟨_, hb, hread, fun k hk => Memory.byteAt?_of_read? hread hk⟩

/-! ## Blocks index by index -/

/-- Two blocks are one where they agree at every index below 32. -/
theorem Block.eq_of_getElem? {a b : Block} (h : ∀ k < 32, a.val[k]? = b.val[k]?) : a = b := by
  refine Subtype.ext (List.ext_getElem? fun k => ?_)
  by_cases hk : k < 32
  · exact h k hk
  · rw [List.getElem?_eq_none (by simpa [a.property] using hk), List.getElem?_eq_none (by simpa [b.property] using hk)]

namespace Machine

/-- A byte of xor32 is the XOR of the two bytes at its index (R120). -/
theorem xor32_getElem? {a b : Block} {k : Nat} {x y : Byte} (hx : a.val[k]? = some x) (hy : b.val[k]? = some y) :
    (xor32 a b).val[k]? = some (x ^^^ y) := by
  rw [xor32_val, List.getElem?_zipWith, hx, hy]

theorem xor32_comm (a b : Block) : xor32 a b = xor32 b a := by
  refine Block.eq_of_getElem? fun k hk => ?_
  obtain ⟨x, hx⟩ := Block.exists_byte a hk
  obtain ⟨y, hy⟩ := Block.exists_byte b hk
  rw [xor32_getElem? hx hy, xor32_getElem? hy hx, BitVec.xor_comm]

/-- XOR with a block, done twice, changes nothing. -/
theorem xor32_cancel_right (a b : Block) : xor32 (xor32 a b) b = a := by
  refine Block.eq_of_getElem? fun k hk => ?_
  obtain ⟨x, hx⟩ := Block.exists_byte a hk
  obtain ⟨y, hy⟩ := Block.exists_byte b hk
  rw [xor32_getElem? (xor32_getElem? hx hy) hy, hx, BitVec.xor_assoc, BitVec.xor_self, BitVec.xor_zero]

/-- XOR with the zero block changes nothing. -/
theorem xor32_zero (a : Block) : xor32 a Block.zero = a := by
  refine Block.eq_of_getElem? fun k hk => ?_
  obtain ⟨x, hx⟩ := Block.exists_byte a hk
  rw [xor32_getElem? (y := 0#8) hx (List.getElem?_replicate_of_lt hk), hx, BitVec.xor_zero]

/-- Byte c of the row of eight that starts at n, once its columns are mirrored (R122, step 3). -/
theorem getElem?_reverse_row {l : List Byte} {n c : Nat} (hn : n + 8 ≤ l.length) (hc : c < 8) :
    ((l.drop n).take 8).reverse[c]? = l[7 - c + n]? := by
  have hlen : ((l.drop n).take 8).length = 8 := by
    simp only [List.length_take, List.length_drop]
    omega
  rw [List.getElem?_reverse (by omega), hlen, List.getElem?_take_of_lt (by omega), List.getElem?_drop,
    show n + (8 - 1 - c) = 7 - c + n by omega]

/-- Byte c of row r of four rows of eight, one after the other (R52). -/
theorem getElem?_rows {row : Nat → List Byte} (hrow : ∀ r < 4, (row r).length = 8) {r c : Nat} (hr : r < 4)
    (hc : c < 8) : (row 0 ++ row 1 ++ row 2 ++ row 3)[c + 8 * r]? = (row r)[c]? := by
  have h0 := hrow 0 (by decide)
  have h1 := hrow 1 (by decide)
  have h2 := hrow 2 (by decide)
  have h3 := hrow 3 (by decide)
  interval_cases r <;> simp [List.getElem?_append, h0, h1, h2, h3, hc]

/-- The byte that ends at (row r, column c) started at (row (r + 2) mod 4, column 7 - c) (R123). -/
theorem perm_getElem?_row_column (b : Block) {r c : Nat} (hr : r < 4) (hc : c < 8) :
    (perm b).val[c + 8 * r]? = b.val[(7 - c) + 8 * ((r + 2) % 4)]? := by
  have hrow (r : Nat) (hr : r < 4) :
      ((b.val.drop (8 * ((r + 2) % 4))).take 8).reverse.length = 8 := by
    simp only [List.length_reverse, List.length_take, List.length_drop, b.property]
    omega
  have hperm := getElem?_rows hrow hr hc
  rw [getElem?_reverse_row (by rw [b.property]; omega) hc] at hperm
  exact hperm

/-- Settles O42: row by row, and then with index j in row j div 8 and column j mod 8. -/
theorem permMovesByteToItsMirror : Obligations.PermMovesByteToItsMirror := by
  intro b
  refine ⟨fun r c => perm_getElem?_row_column b, fun j hj => ?_⟩
  have hmirror : ∀ j < 32, 7 - j % 8 + 8 * ((j / 8 + 2) % 4) = j ^^^ 0x17 := by decide
  rw [← hmirror j hj, ← perm_getElem?_row_column b (by omega) (by omega), Nat.mod_add_div]

/-- Settles O44: perm moves the bytes of both blocks by one and the same index map. -/
theorem permCommutesWithXor : Obligations.PermCommutesWithXor := by
  intro a b
  refine Block.eq_of_getElem? fun j hj => ?_
  have hmoved (b : Block) : (perm b).val[j]? = b.val[j ^^^ 0x17]? := (permMovesByteToItsMirror b).2 j hj
  rw [hmoved, xor32_val, xor32_val, List.getElem?_zipWith, List.getElem?_zipWith, hmoved, hmoved]

/-! ## The chaining -/

/-- One block decrypted from the keyround it was encrypted from: the block again, and the same next keyround (R143). -/
theorem decBlock_encBlock (k b : Block) : decBlock k (encBlock k b).1 = (b, (encBlock k b).2) := by
  rw [encBlock, decBlock, permIsAnInvolution, xor32_cancel_right]

/-- Settles O45: the two loops keep the same keyrounds, block by block (R144). -/
theorem decryptingBlocksUndoesEncryptingThem : Obligations.DecryptingBlocksUndoesEncryptingThem := by
  intro k bs
  unfold encBlocks decBlocks
  induction bs generalizing k with
  | nil => rfl
  | cons b bs ih => rw [blockLoop_cons, blockLoop_cons, decBlock_encBlock, ih]

/-- KEYROUND of ENCRYPT is the running XOR of keyround_0 and the blocks so far (R145). -/
theorem encBlocks_keyround (k : Block) (bs : List Block) : (encBlocks k bs).2 = bs.foldl xor32 k := by
  unfold encBlocks
  induction bs generalizing k with
  | nil => rfl
  | cons b bs ih => rw [blockLoop_cons, ih, List.foldl_cons, xor32_comm k b]; rfl

/-- Settles O46: block i is emitted from keyround i, which is the running XOR for ENCRYPT and perm of the block before for
DECRYPT. -/
theorem chainingClosedForms : Obligations.ChainingClosedForms := by
  refine ⟨fun k bs i hi => ?_, fun k c cs => rfl, fun k cs i c d hc hd => ?_⟩
  · obtain ⟨hout, hnext⟩ := blockLoop_at encBlock k (List.getElem?_eq_getElem hi)
    have hsum : keyroundAt encBlock k bs (i + 1) = (bs.take (i + 1)).foldl xor32 k := encBlocks_keyround _ _
    rw [← hsum, hnext]
    exact hout
  · obtain ⟨hout, -⟩ := blockLoop_at decBlock k hd
    obtain ⟨-, hprev⟩ := blockLoop_at decBlock k hc
    rw [hprev] at hout
    exact hout

/-- Settles O48: XOR with the zero block changes nothing, so the emitted block is perm of `b`. -/
theorem workedChainingExample : Obligations.WorkedChainingExample := by
  intro b hb
  rw [encBlock, xor32_zero]
  refine ⟨rfl, ?_⟩
  rw [perm_val, hb]
  decide

/-! ## What ENCRYPT and DECRYPT depend on -/

/-- Settles O34: the precondition reads three flags and PT, and the loop reads PT and the XOR of KEY and IV. -/
theorem encryptDependsOnlyOnKeyXorIvAndPlaintext : Obligations.EncryptDependsOnlyOnKeyXorIvAndPlaintext := by
  intro s s' hseed hkey hiv hset hpt
  have hseed : seed s'.ctx = seed s.ctx := hseed
  have hready : s'.ctx.ready s'.ctx.ptSet s'.ctx.ptLen = s.ctx.ready s.ctx.ptSet s.ctx.ptLen := by
    rw [Context.ready, Context.ready, Context.ptLen_eq, Context.ptLen_eq, hkey, hiv, hset, hpt]
  rcases h : s.ctx.ready s.ctx.ptSet s.ctx.ptLen
  · exact ⟨_, _, Response.failure .missingInput, effect_exec (.encBad h), State.withCtx_give_answered _ _ _,
      effect_exec (.encBad (hready.trans h)), State.withCtx_give_answered _ _ _, nofun⟩
  · have hexec' := effect_exec (.encOk (cfg := s'.cfg) (hready.trans h))
    rw [hseed, hpt] at hexec'
    exact ⟨_, _, _, effect_exec (.encOk h), State.withCtx_give_answered _ _ _, hexec',
      State.withCtx_give_answered _ _ _, fun _ => ⟨Memory.same_refl _, rfl⟩⟩

/-- After the first block the loop of DECRYPT has forgotten where it started from (R145). -/
theorem ofBlocks_decBlocks_drop (k k' : Block) (cs : List Block) :
    (Memory.ofBlocks (decBlocks k cs).1).drop 32 = (Memory.ofBlocks (decBlocks k' cs).1).drop 32 := by
  cases cs with
  | nil => rfl
  | cons c cs =>
    simp only [decBlocks, blockLoop_cons, Memory.ofBlocks_cons]
    rw [List.drop_left' (decBlock k c).1.property, List.drop_left' (decBlock k' c).1.property]
    rfl

/-- Settles O35: the two runs recover equally many bytes, and the same from the second block on. -/
theorem aWrongKeyDamagesOnlyTheFirstBlock : Obligations.AWrongKeyDamagesOnlyTheFirstBlock := by
  intro c d hct
  refine ⟨by rw [d.length_recovered, c.length_recovered, hct], fun k hk => ?_⟩
  have hdrop : d.recovered.drop 32 = c.recovered.drop 32 := by
    rw [Context.recovered, Context.recovered, hct]
    exact ofBlocks_decBlocks_drop _ _ _
  have hat := congrArg (·[k - 32]?) hdrop
  simpa only [List.getElem?_drop, Nat.add_sub_cancel' hk, Memory.byteAt?] using hat

end Machine

end Sys2Proof
end

section
/-! Proofs of the statements on the step, reset and whole runs (rules R27, R29, R33, R35, R224, R225, R240 to R249). -/

namespace Sys2Proof.Machine

/-! ## What a step can do -/

/-- The cases of a step from `s`, one for each thing the host may do next, and the state after it. -/
inductive StepEffect (s : State) : State → Prop
  | idle (hin : s.inbox = []) : StepEffect s s
  | reset {rest} (hin : s.inbox = .reset :: rest) : StepEffect s (State.withCtx { s with inbox := rest } Context.empty)
  | resetDuring {c rest} (hin : s.inbox = .resetDuring c :: rest) :
      StepEffect s (State.withCtx { s with inbox := rest } Context.empty)
  | command {c rest i d r} (hin : s.inbox = .command c :: rest) (hd : decode c = .legal i)
      (he : Effect s.cfg s.ctx i d r) : StepEffect s (State.give (State.withCtx { s with inbox := rest } d) r)
  | illegal {c rest why} (hin : s.inbox = .command c :: rest) (hd : decode c = .illegal why) :
      StepEffect s (State.give { s with inbox := rest } (Response.failure .illegalCommand))

/-- Every listed case is a step. -/
theorem StepEffect.step_eq {s t : State} (h : StepEffect s t) : step s = .next t := by
  cases h with
  | idle hin => simp [step, fetch, hin, Machine.idle]
  | reset hin => simp [step, fetch, hin, takeReset]
  | resetDuring hin => simp [step, fetch, hin, takeReset]
  | command hin hd he => exact (step_of_decode_legal hin hd).trans (effect_exec he)
  | illegal hin hd => exact step_of_decode_illegal hin hd

/-- Every state steps, by one of the cases listed (R225). -/
theorem exists_stepEffect (s : State) : ∃ t, StepEffect s t := by
  rcases fetch_cases s with ⟨hin, -⟩ | ⟨rest, hin, -⟩ | ⟨c, rest, hin, -⟩ | ⟨c, rest, i, hin, hd, -⟩ |
    ⟨c, rest, why, hin, hd, -⟩
  · exact ⟨_, .idle hin⟩
  · exact ⟨_, .reset hin⟩
  · exact ⟨_, .resetDuring hin⟩
  · obtain ⟨d, r, he, -⟩ := exec_effect i s
    exact ⟨_, .command hin hd he⟩
  · exact ⟨_, .illegal hin hd⟩

theorem step_eq_next_iff {s t : State} : step s = .next t ↔ StepEffect s t := by
  refine ⟨fun h => ?_, StepEffect.step_eq⟩
  obtain ⟨u, hu⟩ := exists_stepEffect s
  cases hu.step_eq.symm.trans h
  exact hu

/-! ## One step -/

/-- Settles O10. -/
theorem stepRunsTheDecodedInstruction : Obligations.StepRunsTheDecodedInstruction :=
  fun _ _ _ _ => step_of_decode_legal

/-- Settles O11: an engine right after reset has no move pending. -/
theorem theEngineWaitsForACommand : Obligations.TheEngineWaitsForACommand :=
  ⟨fun _ hin => (StepEffect.idle hin).step_eq, fun _ => (StepEffect.idle rfl).step_eq⟩

/-- Settles O12: both kinds of reset, and INIT, leave the empty context. -/
theorem resetEmptiesTheContextAtAnyTime : Obligations.ResetEmptiesTheContextAtAnyTime := by
  intro s c rest hin
  have hstep : StepEffect s (State.withCtx { s with inbox := rest } Context.empty) :=
    hin.elim .reset .resetDuring
  exact ⟨_, _, hstep.step_eq, effect_exec .init, rfl, rfl, rfl, rfl, rfl, rfl, rfl, rfl, rfl, rfl, rfl, rfl, rfl, rfl,
    rfl, rfl, rfl⟩

/-- Settles O13: INIT's effect is the empty context, which is the context after reset. -/
theorem theResetStateIsWhatInitLeaves : Obligations.TheResetStateIsWhatInitLeaves :=
  ⟨rfl, rfl, rfl, fun _ _ => ⟨_, effect_exec .init, rfl, rfl⟩⟩

/-- Settles O50: a step that clears a flag is a reset or a command that unsets a field, which is INIT; both leave the empty
context. -/
theorem flagsAreClearedOnlyByInitAndReset : Obligations.FlagsAreClearedOnlyByInitAndReset := by
  intro s t hstep hunset
  have hlost : ¬ s.ctx.KeepsSetFlags t.ctx := by
    rintro ⟨hkey, hiv, hpt, hct⟩
    rcases hunset with ⟨hset, hclear⟩ | ⟨hset, hclear⟩ | ⟨hset, hclear⟩ | ⟨hset, hclear⟩
    · exact Bool.eq_false_iff.1 hclear (hkey hset)
    · exact Bool.eq_false_iff.1 hclear (hiv hset)
    · exact Bool.eq_false_iff.1 hclear (hpt hset)
    · exact Bool.eq_false_iff.1 hclear (hct hset)
  cases step_eq_next_iff.1 hstep with
  | idle hin => exact absurd ⟨id, id, id, id⟩ hlost
  | reset hin => exact ⟨rfl, .inl ⟨_, hin⟩⟩
  | resetDuring hin => exact ⟨rfl, .inr (.inl ⟨_, _, hin⟩)⟩
  | @command c rest i d r hin hd he =>
    obtain rfl : i = .init := by
      by_contra hi
      exact hlost (he.keepsSetFlags hi)
    cases he
    exact ⟨rfl, .inr (.inr ⟨_, _, hin, hd⟩)⟩
  | illegal hin hd => exact absurd ⟨id, id, id, id⟩ hlost

/-! ## The invariant -/

/-- The empty context meets the invariant. -/
theorem Context.empty_inv (cfg : Config) : Context.empty.Inv cfg :=
  ⟨fun _ => rfl, fun _ => rfl, fun _ => rfl, fun _ => rfl, Memory.wf_nil _, Memory.wf_nil _, nofun⟩

/-- Settles O14. -/
theorem invariantHoldsAtReset : Obligations.InvariantHoldsAtReset :=
  have hreset (cfg : Config) (hcfg : cfg.wf = true) : (State.resetWith cfg).Inv :=
    ⟨hcfg, Context.empty_inv cfg, nofun⟩
  ⟨hreset _ rfl, hreset⟩

/-- Every command keeps the invariant of the context (R29). -/
theorem Effect.keeps_inv {cfg : Config} {c d : Context} {i : Instr} {r : Response} (he : Effect cfg c i d r)
    (hc : c.Inv cfg) : d.Inv cfg := by
  have ⟨hkey, hiv, hptEmpty, hctEmpty, hpt, hct, hblock⟩ := hc
  cases he
  case init => exact Context.empty_inv cfg
  case keyOk => exact ⟨nofun, hiv, hptEmpty, hctEmpty, hpt, hct, hblock⟩
  case ivOk => exact ⟨hkey, nofun, hptEmpty, hctEmpty, hpt, hct, hblock⟩
  case ptOk pl _ hfits =>
    exact ⟨hkey, hiv, nofun, hctEmpty, Memory.wf_iff.2 (pl.bytes_length.trans_le hfits), hct, hblock⟩
  case ctOk pl h32 hfits =>
    exact ⟨hkey, hiv, hptEmpty, nofun, hpt, Memory.wf_iff.2 (pl.bytes_length.trans_le hfits),
      fun _ => h32.trans_eq pl.bytes_length.symm⟩
  case encOk hready =>
    obtain ⟨-, -, -, hpos, hwhole⟩ := Context.ready_iff.1 hready
    refine ⟨hkey, hiv, hptEmpty, nofun, hpt, Memory.wf_ofBlocks hpt (length_encBlocks _ _), fun _ => ?_⟩
    rw [Context.ptLen_eq] at hpos hwhole
    rw [Context.ctLen_eq, Context.putCt_ct, Memory.length_ofBlocks, length_encBlocks, Memory.length_blocks]
    omega
  case decCorrupt => exact ⟨hkey, hiv, hptEmpty, hctEmpty, hpt, hct, hblock⟩
  case decOk m _ hu =>
    exact ⟨hkey, hiv, nofun, hctEmpty, Memory.wf_unpad (Context.wf_recovered hct) hu, hct, hblock⟩
  all_goals exact hc

/-- An error response has the form of R75 and R76. -/
theorem Response.failure_wellFormed (e : Error) : (Response.failure e).WellFormed :=
  ⟨Nat.zero_lt_succ _, fun _ => ⟨rfl, rfl⟩, .inl rfl⟩

/-- The data phase of every response is empty or has COUNT bytes (R76). -/
theorem Effect.data_counted {cfg : Config} {c d : Context} {i : Instr} {r : Response} (he : Effect cfg c i d r) :
    r.data = [] ∨ r.data.length = r.count := by
  cases he
  case padOk pl _ => exact .inr (by simp [Response.success, length_pad, pl.bytes_length])
  case getPt | getCt | stat => exact .inr rfl
  all_goals exact .inl rfl

/-- Every response has the form of R75 and R76. -/
theorem Effect.wellFormed {cfg : Config} {c d : Context} {i : Instr} {r : Response} (he : Effect cfg c i d r)
    (hcfg : cfg.wf = true) (hc : c.Inv cfg) : r.WellFormed := by
  refine ⟨he.count_fits hcfg hc, fun hne => ?_, he.data_counted⟩
  obtain ⟨e, rfl⟩ := he.ok_or_failure.resolve_left hne
  exact ⟨rfl, rfl⟩

/-- One well-formed response more leaves every response well formed. -/
theorem Response.forall_wellFormed_append {rs : List Response} {r : Response} (hrs : ∀ q ∈ rs, q.WellFormed)
    (hr : r.WellFormed) : ∀ q ∈ rs ++ [r], q.WellFormed := by
  simp only [List.mem_append, List.mem_singleton]
  rintro q (hq | rfl)
  · exact hrs q hq
  · exact hr

theorem StepEffect.keeps_inv {s t : State} (h : StepEffect s t) (hs : s.Inv) : t.Inv := by
  obtain ⟨hcfg, hctx, hresponses⟩ := hs
  cases h with
  | idle => exact ⟨hcfg, hctx, hresponses⟩
  | reset | resetDuring => exact ⟨hcfg, Context.empty_inv _, hresponses⟩
  | command hin hd he =>
    exact ⟨hcfg, he.keeps_inv hctx, Response.forall_wellFormed_append hresponses (he.wellFormed hcfg hctx)⟩
  | illegal =>
    exact ⟨hcfg, hctx, Response.forall_wellFormed_append hresponses (Response.failure_wellFormed _)⟩

/-- Settles O15, case by case of the step. -/
theorem everyStepKeepsTheInvariant : Obligations.EveryStepKeepsTheInvariant :=
  fun _ _ hs hstep => (step_eq_next_iff.1 hstep).keeps_inv hs

/-! ## Runs -/

/-- A run whose first step goes on is the run from the state after it. -/
theorem run_succ_of_step {M : Host.Core} {s t : M.State} (h : M.step s = .next t) (n : Nat) :
    M.run (n + 1) s = M.run n t := by
  rw [Host.Core.run, h]

theorem StepEffect.run_succ {s t : State} (h : StepEffect s t) (n : Nat) :
    Host.Core.run core (n + 1) s = Host.Core.run core n t :=
  run_succ_of_step (M := core) h.step_eq n

/-- A step with a move pending takes that move, keeps BUF_CAP, and gives one response exactly for a command that is carried
to its response (R70, R242). -/
theorem StepEffect.takes_move {s t : State} {m : HostMove} {moves : List HostMove} (h : StepEffect s t)
    (hin : s.inbox = m :: moves) :
    t.inbox = moves ∧ t.cfg = s.cfg ∧ t.outbox.length = s.outbox.length + m.isCommand.toNat := by
  cases h with
  | idle h => cases hin.symm.trans h
  | reset h | resetDuring h =>
    cases hin.symm.trans h
    exact ⟨rfl, rfl, rfl⟩
  | command h | illegal h =>
    cases hin.symm.trans h
    exact ⟨rfl, rfl, List.length_append⟩

/-- A run from a state of the invariant takes all its moves and answers each command once (R225). -/
theorem run_answers {moves : List HostMove} {s : State} (hin : s.inbox = moves) (hs : s.Inv) :
    ∃ t : State, Host.Core.run core moves.length s = .next t ∧ t.Inv ∧ t.inbox = [] ∧ t.cfg = s.cfg ∧
      t.outbox.length = s.outbox.length + (moves.filter HostMove.isCommand).length := by
  induction moves generalizing s with
  | nil => exact ⟨s, rfl, hs, hin, rfl, rfl⟩
  | cons m moves ih =>
    obtain ⟨u, hu⟩ := exists_stepEffect s
    obtain ⟨huin, hucfg, huout⟩ := hu.takes_move hin
    obtain ⟨t, hrun, ht, htin, htcfg, htout⟩ := ih huin (hu.keeps_inv hs)
    refine ⟨t, (hu.run_succ _).trans hrun, ht, htin, htcfg.trans hucfg, ?_⟩
    rw [htout, huout, List.filter_cons]
    cases m.isCommand with
    | false => simp
    | true =>
      simp only [Bool.toNat_true, if_true, List.length_cons]
      omega

/-- Settles O16: the state after reset meets the invariant, and so does one with moves pending. -/
theorem everyRunFromResetAnswersEachCommandOnce : Obligations.EveryRunFromResetAnswersEachCommandOnce := by
  intro cfg moves hcfg
  have hreset := invariantHoldsAtReset.2 cfg hcfg
  have hstart : State.Inv { State.resetWith cfg with inbox := moves } := ⟨hreset.cfg_wf, hreset.ctx, hreset.responses⟩
  simpa [State.resetWith] using run_answers rfl hstart

/-! ## What the host can observe -/

/-- Contexts the host cannot tell apart have the same keyround_0 where key and iv are set (R35, R140). -/
theorem Context.SameToHost.seed_eq {c c' : Context} (h : c.SameToHost c') (hkey : c.keySet = true)
    (hiv : c.ivSet = true) : seed c' = seed c := by
  rw [seed, seed, h.key hkey, h.iv hiv]

/-- Contexts the host cannot tell apart meet the same precondition (R160). -/
theorem Context.SameToHost.ready_eq {c c' : Context} (h : c.SameToHost c') (isSet : Bool) (len : Nat) :
    c'.ready isSet len = c.ready isSet len := by
  rw [Context.ready, Context.ready, h.keySet, h.ivSet]

/-- Contexts the host cannot tell apart recover the same bytes where key and iv are set (R35, R163). -/
theorem Context.SameToHost.recovered_eq {c c' : Context} (h : c.SameToHost c') (hkey : c.keySet = true)
    (hiv : c.ivSet = true) : c'.recovered = c.recovered := by
  rw [Context.recovered, Context.recovered, h.seed_eq hkey hiv, h.ct]

theorem Context.SameToHost.refl (c : Context) : c.SameToHost c :=
  ⟨rfl, fun _ => rfl, rfl, fun _ => rfl, rfl, rfl, rfl, rfl⟩

/-- A context the host cannot tell from `c` is `c` with another KEY, IV and KEYROUND. -/
theorem Context.SameToHost.exists_eq {c c' : Context} (h : c.SameToHost c') :
    ∃ key iv keyround, c' = { c with key := key, iv := iv, keyround := keyround } := by
  have ⟨hkeySet, _, hivSet, _, hpt, hptSet, hct, hctSet⟩ := h
  refine ⟨c'.key, c'.iv, c'.keyround, ?_⟩
  rw [← hkeySet, ← hivSet, ← hpt, ← hptSet, ← hct, ← hctSet]

/-- A command answers alike in contexts the host cannot tell apart, and leaves such contexts (R35): KEYROUND is never read,
and KEY and IV are read only where they are set. -/
theorem Effect.sameToHost {cfg : Config} {c c' d : Context} {i : Instr} {r : Response} (he : Effect cfg c i d r)
    (h : c.SameToHost c') : ∃ d', Effect cfg c' i d' r ∧ d.SameToHost d' := by
  have hready := h.ready_eq
  have hseed := h.seed_eq
  have hrecovered := h.recovered_eq
  have ⟨_, hkey, _, hiv, _, _, _, _⟩ := h
  obtain ⟨key, iv, keyround, rfl⟩ := h.exists_eq
  cases he
  case init => exact ⟨_, .init, .refl _⟩
  case keyOk pl hl => exact ⟨_, .keyOk pl hl, rfl, fun _ => rfl, rfl, hiv, rfl, rfl, rfl, rfl⟩
  case keyBad pl hl => exact ⟨_, .keyBad pl hl, h⟩
  case ivOk pl hl => exact ⟨_, .ivOk pl hl, rfl, hkey, rfl, fun _ => rfl, rfl, rfl, rfl, rfl⟩
  case ivBad pl hl => exact ⟨_, .ivBad pl hl, h⟩
  case ptOk pl h32 hl => exact ⟨_, .ptOk pl h32 hl, rfl, hkey, rfl, hiv, rfl, rfl, rfl, rfl⟩
  case ptShort pl hl => exact ⟨_, .ptShort pl hl, h⟩
  case ptBig pl h32 hl => exact ⟨_, .ptBig pl h32 hl, h⟩
  case ctOk pl h32 hl => exact ⟨_, .ctOk pl h32 hl, rfl, hkey, rfl, hiv, rfl, rfl, rfl, rfl⟩
  case ctShort pl hl => exact ⟨_, .ctShort pl hl, h⟩
  case ctBig pl h32 hl => exact ⟨_, .ctBig pl h32 hl, h⟩
  case padOk pl hl => exact ⟨_, .padOk pl hl, h⟩
  case padBig pl hl => exact ⟨_, .padBig pl hl, h⟩
  case getPt => exact ⟨_, .getPt, h⟩
  case getCt => exact ⟨_, .getCt, h⟩
  case stat => exact ⟨_, .stat, h⟩
  case encBad hr => exact ⟨_, .encBad ((hready _ _).trans hr), h⟩
  case encOk hr =>
    obtain ⟨hkeySet, hivSet, -⟩ := Context.ready_iff.1 hr
    refine ⟨_, .encOk ((hready _ _).trans hr), rfl, hkey, rfl, hiv, rfl, rfl, ?_, rfl⟩
    exact congrArg (fun k => Memory.ofBlocks (encBlocks k c.pt.blocks).1) (hseed hkeySet hivSet)
  case decBad hr => exact ⟨_, .decBad ((hready _ _).trans hr), h⟩
  case decCorrupt hr hu =>
    obtain ⟨hkeySet, hivSet, -⟩ := Context.ready_iff.1 hr
    rw [← hrecovered hkeySet hivSet] at hu
    exact ⟨_, .decCorrupt ((hready _ _).trans hr) hu, rfl, hkey, rfl, hiv, rfl, rfl, rfl, rfl⟩
  case decOk m hr hu =>
    obtain ⟨hkeySet, hivSet, -⟩ := Context.ready_iff.1 hr
    rw [← hrecovered hkeySet hivSet] at hu
    exact ⟨_, .decOk m ((hready _ _).trans hr) hu, rfl, hkey, rfl, hiv, rfl, rfl, rfl, rfl⟩

/-- A step from states the host cannot tell apart leaves such states (R35). -/
theorem StepEffect.sameToHost {s s' t : State} (hstep : StepEffect s t) (h : s.SameToHost s') :
    ∃ t', StepEffect s' t' ∧ t.SameToHost t' := by
  obtain ⟨hcfg, hin', hout, hctx⟩ := h
  cases hstep with
  | idle hin => exact ⟨s', .idle (hin'.trans hin), hcfg, hin', hout, hctx⟩
  | reset hin => exact ⟨_, .reset (hin'.trans hin), hcfg, rfl, hout, .refl _⟩
  | resetDuring hin => exact ⟨_, .resetDuring (hin'.trans hin), hcfg, rfl, hout, .refl _⟩
  | @command c rest i d r hin hd he =>
    rw [← hcfg] at he
    obtain ⟨d', he', hsame⟩ := he.sameToHost hctx
    exact ⟨_, .command (hin'.trans hin) hd he', hcfg, rfl, congrArg (· ++ [r]) hout, hsame⟩
  | illegal hin hd =>
    exact ⟨_, .illegal (hin'.trans hin) hd, hcfg, rfl, congrArg (· ++ [Response.failure .illegalCommand]) hout, hctx⟩

/-- Settles O53: the relation is kept by every step, so by runs of any length, and it has the responses equal. -/
theorem keyroundAndUnsetKeysAreNeverObserved : Obligations.KeyroundAndUnsetKeysAreNeverObserved := by
  intro n
  induction n with
  | zero => exact fun s s' h => ⟨s, s', rfl, rfl, h.outbox, h⟩
  | succ n ih =>
    intro s s' h
    obtain ⟨u, hu⟩ := exists_stepEffect s
    obtain ⟨u', hu', hsame⟩ := hu.sameToHost h
    obtain ⟨t, t', hrun, hrun', hresult⟩ := ih u u' hsame
    exact ⟨t, t', (hu.run_succ n).trans hrun, (hu'.run_succ n).trans hrun', hresult⟩

end Sys2Proof.Machine
end

section
/-! Proofs of the statements on single commands and short sequences of them: frames, errors, repetition, the setters, the round
trip and the worked words (rules R26, R32, R57, R85, R166, R185, R215 to R218). -/

namespace Sys2Proof.Machine

/-! ## What each command leaves unchanged -/

section Frames
variable {cfg : Config} {c d : Context} {i : Instr} {r : Response}

theorem Effect.keepsKey (he : Effect cfg c i d r) (hi : i.opc ∉ [0x01, 0x02]) : c.KeepsKey d := by
  cases he
  case init | keyOk => simp [Instr.opc] at hi
  all_goals exact ⟨rfl, rfl⟩

theorem Effect.keepsIv (he : Effect cfg c i d r) (hi : i.opc ∉ [0x01, 0x03]) : c.KeepsIv d := by
  cases he
  case init | ivOk => simp [Instr.opc] at hi
  all_goals exact ⟨rfl, rfl⟩

theorem Effect.keepsPt (he : Effect cfg c i d r) (hi : i.opc ∉ [0x01, 0x04, 0x07]) : c.KeepsPt d := by
  cases he
  case init | ptOk | decOk => simp [Instr.opc] at hi
  all_goals exact ⟨Memory.same_refl _, rfl⟩

theorem Effect.keepsCt (he : Effect cfg c i d r) (hi : i.opc ∉ [0x01, 0x05, 0x06]) : c.KeepsCt d := by
  cases he
  case init | ctOk | encOk => simp [Instr.opc] at hi
  all_goals exact ⟨Memory.same_refl _, rfl⟩

theorem Effect.keepsKeyround (he : Effect cfg c i d r) (hi : i.opc ∉ [0x01, 0x06, 0x07]) : c.KeepsKeyround d := by
  cases he
  case init | encOk | decCorrupt | decOk => simp [Instr.opc] at hi
  all_goals rfl

end Frames

/-- Settles O49, field by field. -/
theorem onlyTheNamedCommandsWriteEachField : Obligations.OnlyTheNamedCommandsWriteEachField := by
  intro i s t hexec
  obtain ⟨d, r, he, rfl⟩ := exec_next hexec
  exact ⟨rfl, rfl, he.keepsKey, he.keepsIv, he.keepsPt, he.keepsCt, he.keepsKeyround⟩

/-! ## Errors and repetition -/

/-- An error other than CorruptPadding leaves the whole context as it was (R215). -/
theorem Effect.eq_of_failure {cfg : Config} {c d : Context} {i : Instr} {e : Error}
    (he : Effect cfg c i d (.failure e)) (hne : e ≠ .corruptPadding) : d = c := by
  cases he
  case decCorrupt => exact absurd rfl hne
  all_goals rfl

/-- KEYROUND of DECRYPT ends as perm of the last block of the ciphertext (R142, R146). -/
theorem decBlocks_keyround_last (k : Block) {m : Memory} (hpos : 0 < m.length) (hwhole : m.length % 32 = 0) :
    ∃ last : Block, m.read? (m.length - 32) 32 = some last.val ∧ (decBlocks k m.blocks).2 = perm last := by
  obtain ⟨last, hread, hround, -⟩ := blockLoop_blocks_at decBlock k m (i := m.length / 32 - 1) (by omega)
  rw [show 32 * (m.length / 32 - 1) = m.length - 32 by omega] at hread
  rw [show m.length / 32 - 1 + 1 = m.length / 32 by omega, ← blockLoop_blocks_keyround] at hround
  exact ⟨last, hread, hround⟩

/-- Settles O19: only CorruptPadding, which DECRYPT alone raises, comes after a field was written, and that field is
KEYROUND. -/
theorem anErrorLeavesTheStateAsItWas : Obligations.AnErrorLeavesTheStateAsItWas := by
  intro i s t e hexec hans
  obtain ⟨d, r, he, rfl⟩ := exec_next hexec
  obtain rfl := hans.eq
  refine ⟨fun hne => Context.keepsAll_iff.2 (he.eq_of_failure hne), ?_⟩
  rintro rfl
  cases he with
  | decCorrupt hready hu =>
    obtain ⟨-, -, -, hpos, hwhole⟩ := Context.ready_iff.1 hready
    exact ⟨rfl, ⟨rfl, rfl⟩, ⟨rfl, rfl⟩, ⟨Memory.same_refl _, rfl⟩, ⟨Memory.same_refl _, rfl⟩,
      decBlocks_keyround_last _ hpos hwhole⟩

/-- The effect of a command on the context it left is the same again (R57, R218): no command writes what it reads. -/
theorem Effect.repeated {cfg : Config} {c d : Context} {i : Instr} {r : Response} (he : Effect cfg c i d r) :
    Effect cfg d i d r := by
  cases he
  case init => exact .init
  case keyOk pl h => exact .keyOk pl h
  case keyBad pl h => exact .keyBad pl h
  case ivOk pl h => exact .ivOk pl h
  case ivBad pl h => exact .ivBad pl h
  case ptOk pl h h' => exact .ptOk pl h h'
  case ptShort pl h => exact .ptShort pl h
  case ptBig pl h h' => exact .ptBig pl h h'
  case ctOk pl h h' => exact .ctOk pl h h'
  case ctShort pl h => exact .ctShort pl h
  case ctBig pl h h' => exact .ctBig pl h h'
  case padOk pl h => exact .padOk pl h
  case padBig pl h => exact .padBig pl h
  case getPt => exact .getPt
  case getCt => exact .getCt
  case stat => exact .stat
  case encBad h => exact .encBad h
  case encOk h => exact .encOk (c := Context.putCt _ _) h
  case decBad h => exact .decBad h
  case decCorrupt h hu => exact .decCorrupt (c := Context.putKeyround _ _) h hu
  case decOk m h hu => exact .decOk (c := Context.putPt _ _) m h hu

/-- Settles O20. -/
theorem aRepeatedCommandGivesTheSameResponse : Obligations.ARepeatedCommandGivesTheSameResponse := by
  intro i s t r hexec hans
  obtain ⟨d, r', he, rfl⟩ := exec_next hexec
  obtain rfl := hans.eq
  exact exec_keepsAll_of_effect (s := (s.withCtx d).give _) he.repeated

/-! ## The setters -/

/-- What a setter of a given opcode may do to the context: nothing, or put a value in its own field. -/
inductive SetterWrite : Byte → (Context → Context) → Prop
  | rejected (opc : Byte) : SetterWrite opc id
  | key (b : Block) : SetterWrite 0x02 (·.putKey b)
  | iv (b : Block) : SetterWrite 0x03 (·.putIv b)
  | pt (m : Memory) : SetterWrite 0x04 (·.putPt m)
  | ct (m : Memory) : SetterWrite 0x05 (·.putCt m)

/-- What a setter does, and its response, are settled by its payload and BUF_CAP, whatever the context holds (R185). -/
theorem exists_setterWrite (cfg : Config) {i : Instr} (h2 : 0x02 ≤ i.opc.toNat) (h5 : i.opc.toNat ≤ 0x05) :
    ∃ f r, SetterWrite i.opc f ∧ ∀ c, Effect cfg c i (f c) r := by
  cases i
  case setKey pl =>
    by_cases h : pl.len.toNat = 32
    · exact ⟨_, _, .key _, fun _ => .keyOk pl h⟩
    · exact ⟨_, _, .rejected _, fun _ => .keyBad pl h⟩
  case setIv pl =>
    by_cases h : pl.len.toNat = 32
    · exact ⟨_, _, .iv _, fun _ => .ivOk pl h⟩
    · exact ⟨_, _, .rejected _, fun _ => .ivBad pl h⟩
  case setPt pl =>
    rcases bufferOperand_cases cfg pl with ⟨h, -⟩ | ⟨h, h', -⟩ | ⟨h, h', -⟩
    · exact ⟨_, _, .rejected _, fun _ => .ptShort pl h⟩
    · exact ⟨_, _, .rejected _, fun _ => .ptBig pl h h'⟩
    · exact ⟨_, _, .pt _, fun _ => .ptOk pl h h'⟩
  case setCt pl =>
    rcases bufferOperand_cases cfg pl with ⟨h, -⟩ | ⟨h, h', -⟩ | ⟨h, h', -⟩
    · exact ⟨_, _, .rejected _, fun _ => .ctShort pl h⟩
    · exact ⟨_, _, .rejected _, fun _ => .ctBig pl h h'⟩
    · exact ⟨_, _, .ct _, fun _ => .ctOk pl h h'⟩
  case init => exact absurd h2 (by decide)
  all_goals exact absurd h5 (by simp [Instr.opc])

/-- Writes of setters with different opcodes commute: they are to different fields. -/
theorem SetterWrite.comm {o p : Byte} {f g : Context → Context} (hf : SetterWrite o f) (hg : SetterWrite p g)
    (hne : o ≠ p) (c : Context) : f (g c) = g (f c) := by
  cases hf with
  | rejected => rfl
  | key =>
    cases hg with
    | key => exact absurd rfl hne
    | rejected | iv | pt | ct => rfl
  | iv =>
    cases hg with
    | iv => exact absurd rfl hne
    | rejected | key | pt | ct => rfl
  | pt =>
    cases hg with
    | pt => exact absurd rfl hne
    | rejected | key | iv | ct => rfl
  | ct =>
    cases hg with
    | ct => exact absurd rfl hne
    | rejected | key | iv | pt => rfl

/-- Settles O51. -/
theorem settersAreIndependent : Obligations.SettersAreIndependent := by
  intro i j s hi2 hi5 hj2 hj5 hne
  obtain ⟨f, ri, hf, hfi⟩ := exists_setterWrite s.cfg hi2 hi5
  obtain ⟨g, rj, hg, hgj⟩ := exists_setterWrite s.cfg hj2 hj5
  exact ⟨_, _, _, _, effect_exec (hfi s.ctx), effect_exec (s := (s.withCtx (f s.ctx)).give ri) (hgj _),
    effect_exec (hgj s.ctx), effect_exec (s := (s.withCtx (g s.ctx)).give rj) (hfi _),
    Context.keepsAll_iff.2 (hf.comm hg hne s.ctx)⟩

/-- Settles O52: a successful setter's effect is to replace the buffer by its payload, which the get then answers. -/
theorem aGetAfterASetReturnsThePayload : Obligations.AGetAfterASetReturnsThePayload := by
  intro pl s t
  refine ⟨fun hexec hans => ?_, fun hexec hans => ?_⟩
  all_goals
    obtain ⟨d, r, he, rfl⟩ := exec_next hexec
    obtain rfl := hans.eq
    rw [← pl.bytes_length]
  · cases he
    exact ⟨_, effect_exec .getPt, State.withCtx_give_answered _ _ _⟩
  · cases he
    exact ⟨_, effect_exec .getCt, State.withCtx_give_answered _ _ _⟩

/-! ## The round trip -/

/-- Every byte sequence that LEN can count is the payload of some command (R71, R72). -/
theorem exists_payload {l : List Byte} (h : l.length < 16777216) :
    ∃ pl : Payload, pl.bytes = l ∧ pl.len.toNat = l.length := by
  have hlen : (BitVec.ofNat 24 l.length).toNat = l.length := Nat.mod_eq_of_lt h
  exact ⟨⟨BitVec.ofNat 24 l.length, l, hlen.symm⟩, rfl, hlen⟩

/-- The context that ENCRYPT leaves when PT was set to `l`: `l` in PT, and its ciphertext in CT (R161). -/
def Context.encrypted (c : Context) (l : Memory) : Context :=
  ((c.putPt l).putKeyround (encBlocks (seed c) l.blocks).2).putCt (Memory.ofBlocks (encBlocks (seed c) l.blocks).1)

section RoundTrip
variable {cfg : Config} {c : Context} {l : Memory}

/-- The ciphertext of whole blocks has their length (R161). -/
theorem Context.ctLen_encrypted (hwhole : l.length % 32 = 0) : (c.encrypted l).ctLen = l.length := by
  rw [Context.encrypted, Context.ctLen_eq, Context.putCt_ct, Memory.length_ofBlocks, length_encBlocks,
    Memory.length_blocks]
  omega

/-- DECRYPT of the ciphertext of whole blocks, under the key and iv that made it, recovers them (R144). -/
theorem Context.recovered_encrypted (hwhole : l.length % 32 = 0) : (c.encrypted l).recovered = l := by
  have hblocks : (c.encrypted l).ct.blocks = (encBlocks (seed c) l.blocks).1 := Memory.blocks_ofBlocks _
  have hseed : seed (c.encrypted l) = seed c := rfl
  rw [Context.recovered, hblocks, hseed, decryptingBlocksUndoesEncryptingThem]
  exact ofBlocks_takeBlocks _ _ (by omega)

/-- ENCRYPT of whole blocks, key and iv being set (R161). -/
theorem effect_encrypt (hkey : c.keySet = true) (hiv : c.ivSet = true) (hpos : 0 < l.length)
    (hwhole : l.length % 32 = 0) : Effect cfg (c.putPt l) .encrypt (c.encrypted l) (.success l.length []) := by
  have he : Effect cfg (c.putPt l) .encrypt (c.encrypted l) (.success (32 * (l.length / 32)) []) :=
    .encOk (Context.ready_iff.2 ⟨hkey, hiv, rfl, hpos, hwhole⟩)
  rwa [Nat.mul_div_cancel' (Nat.dvd_of_mod_eq_zero hwhole)] at he

/-- DECRYPT after ENCRYPT of a padded message answers the message's length, and GET_PT then the message (R163, R166). -/
theorem effect_decrypt_encrypted (hkey : c.keySet = true) (hiv : c.ivSet = true) {m : Payload}
    (hpos : 0 < (pad m.bytes).length) (hwhole : (pad m.bytes).length % 32 = 0) :
    ∃ d, Effect cfg (c.encrypted (pad m.bytes)) .decrypt d (.success m.len.toNat []) ∧
      Effect cfg d .getPt d (.success m.len.toNat m.bytes) := by
  have hready : (c.encrypted (pad m.bytes)).ready true (c.encrypted (pad m.bytes)).ctLen = true := by
    rw [Context.ctLen_encrypted hwhole]
    exact Context.ready_iff.2 ⟨hkey, hiv, rfl, hpos, hwhole⟩
  have hunpad : unpad (c.encrypted (pad m.bytes)).recovered = some m.bytes := by
    rw [Context.recovered_encrypted hwhole, unpadInvertsPad]
  rw [← m.bytes_length]
  exact ⟨_, .decOk _ hready hunpad, .getPt⟩

end RoundTrip

/-- A command with effect `d`, `r` on context `c` answers `r` in every state with that context, and leaves `d`. -/
theorem exists_exec_of_effect {cfg : Config} {c d : Context} {s : State} {i : Instr} {r : Response}
    (hcfg : s.cfg = cfg) (hctx : s.ctx = c) (he : Effect cfg c i d r) :
    ∃ t, exec i s = .next t ∧ s.Answered r t ∧ t.cfg = cfg ∧ t.ctx = d := by
  subst hcfg hctx
  exact ⟨_, effect_exec he, State.withCtx_give_answered _ _ _, rfl, rfl⟩

/-- Settles O36: the commands' effects one after the other. SET_CT puts back what ENCRYPT left in CT, so both times DECRYPT
meets the same context. -/
theorem roundTripReturnsTheMessage : Obligations.RoundTripReturnsTheMessage := by
  intro s m hcfg hkey hiv hfits
  simp only [Config.wf, Bool.and_eq_true, beq_iff_eq, decide_eq_true_eq] at hcfg
  obtain ⟨⟨hblocks, -⟩, hmax⟩ := hcfg
  have hlen : (pad m.bytes).length = m.len.toNat + padCount m.len.toNat := by rw [length_pad, m.bytes_length]
  have hcap : m.len.toNat + padCount m.len.toNat ≤ s.cfg.bufCap := (add_padCount_le_iff hblocks _).2 hfits
  obtain ⟨hmult, -⟩ := paddedLengthIsTheNextMultiple m.bytes
  have hwhole : (pad m.bytes).length % 32 = 0 := by omega
  have hctLen : (s.ctx.encrypted (pad m.bytes)).ctLen = (pad m.bytes).length := Context.ctLen_encrypted hwhole
  rw [Context.ctLen_eq] at hctLen
  obtain ⟨d, hd, hdlen⟩ := exists_payload (l := pad m.bytes) (by omega)
  obtain ⟨e, he, helen⟩ := exists_payload (l := (s.ctx.encrypted (pad m.bytes)).ct) (by omega)
  have hpad : Effect s.cfg s.ctx (.pad m) s.ctx (.success d.len.toNat d.bytes) := by
    rw [hd, hdlen, hlen]
    exact .padOk m hcap
  have hsetPt : Effect s.cfg s.ctx (.setPt d) (s.ctx.putPt (pad m.bytes)) (.success 0 []) :=
    hd ▸ .ptOk d (by omega) (by omega)
  have hencrypt : Effect s.cfg (s.ctx.putPt (pad m.bytes)) .encrypt (s.ctx.encrypted (pad m.bytes))
      (.success d.len.toNat []) := hdlen ▸ effect_encrypt hkey hiv (by omega) hwhole
  have hgetCt : Effect s.cfg (s.ctx.encrypted (pad m.bytes)) .getCt (s.ctx.encrypted (pad m.bytes))
      (.success e.len.toNat e.bytes) := by
    rw [he, helen]
    exact .getCt
  have hsetCt : Effect s.cfg (s.ctx.encrypted (pad m.bytes)) (.setCt e) (s.ctx.encrypted (pad m.bytes))
      (.success 0 []) := by
    have hset := Effect.ctOk (cfg := s.cfg) (c := s.ctx.encrypted (pad m.bytes)) e (by omega) (by omega)
    rwa [he] at hset
  obtain ⟨p, hdecrypt, hgetPt⟩ := effect_decrypt_encrypted (cfg := s.cfg) hkey hiv (by omega) hwhole
  obtain ⟨s1, exec1, ans1, cfg1, ctx1⟩ := exists_exec_of_effect rfl rfl hpad
  obtain ⟨s2, exec2, ans2, cfg2, ctx2⟩ := exists_exec_of_effect cfg1 ctx1 hsetPt
  obtain ⟨s3, exec3, ans3, cfg3, ctx3⟩ := exists_exec_of_effect cfg2 ctx2 hencrypt
  obtain ⟨s4, exec4, ans4, cfg4, ctx4⟩ := exists_exec_of_effect cfg3 ctx3 hgetCt
  obtain ⟨s5, exec5, ans5, cfg5, ctx5⟩ := exists_exec_of_effect cfg4 ctx4 hsetCt
  obtain ⟨s6, exec6, ans6, cfg6, ctx6⟩ := exists_exec_of_effect cfg5 ctx5 hdecrypt
  obtain ⟨s7, exec7, ans7, -, -⟩ := exists_exec_of_effect cfg6 ctx6 hgetPt
  obtain ⟨u, execU, ansU, cfgU, ctxU⟩ := exists_exec_of_effect cfg3 ctx3 hdecrypt
  obtain ⟨v, execV, ansV, -, -⟩ := exists_exec_of_effect cfgU ctxU hgetPt
  exact ⟨d, e, s1, s2, s3, s4, s5, s6, s7, u, v, exec1, ans1, exec2, ans2, exec3, ans3, exec4, ans4, exec5, ans5,
    exec6, ans6, exec7, ans7, execU, ansU, execV, ansV⟩

/-! ## The worked command words -/

/-- The word of a success is COUNT * 256: its status is 0x00 (R75, R77). -/
theorem Response.word_success (n : Nat) (data : List Byte) :
    (Response.success n data).word = BitVec.ofNat 32 (n * 256) := by
  simp [Response.word, Response.success, Status.code]

/-- What the step that takes a command answers: the response of the command's effect, or IllegalCommand and no change. -/
theorem exists_step_response {s : State} {c : Command} {rest : List HostMove} (hin : s.inbox = .command c :: rest) :
    ∃ t r, step s = .next t ∧ t.outbox = s.outbox ++ [r] ∧
      (∀ i d r', decode c = .legal i → Effect s.cfg s.ctx i d r' → r = r' ∧ t.ctx = d) ∧
      (IllegalWord c.word → r = Response.failure .illegalCommand ∧ t.ctx = s.ctx) := by
  rcases hd : decode c with i | why
  · obtain ⟨d, r, he, -⟩ := exec_effect i s
    refine ⟨_, r, (StepEffect.command hin hd he).step_eq, rfl, fun i' d' r' hi' he' => ?_,
      fun hw => absurd hw ((exists_decode_legal_iff c).1 ⟨i, hd⟩)⟩
    cases hi'
    obtain ⟨rfl, rfl⟩ := he.unique he'
    exact ⟨rfl, rfl⟩
  · exact ⟨_, _, (StepEffect.illegal hin hd).step_eq, rfl, (fun _ _ _ h => nomatch h), fun _ => ⟨rfl, rfl⟩⟩

/-- Settles O54, row by row: the word's command, by its worked encoding, and the effect of that command. -/
theorem workedCommandWordsAreAnsweredAsListed : Obligations.WorkedCommandWordsAreAnsweredAsListed := by
  intro s c rest hin
  obtain ⟨t, r, hstep, hout, hlegal, hillegal⟩ := exists_step_response hin
  refine ⟨t, r, hstep, hout, fun hw => ?init, fun hw => ?key32, fun hw => ?key31, fun hw hcap => ?pad40,
    fun hw hkey hiv hset hlen => ?encrypt, fun hw hready m hu hm => ?decrypt, fun hw => ?stat, fun hw => ?illegal⟩
  case init =>
    obtain ⟨rfl, -⟩ := hlegal .init _ _ ((formatN_encodes (by decide) rfl).2 c hw) .init
    exact ⟨rfl, rfl⟩
  case key32 =>
    obtain ⟨pl, hd, hpl, -⟩ := (IsFormatP.encodes (mk := .setKey) (fun _ => ⟨rfl, rfl⟩) rfl).2 c hw
    obtain ⟨rfl, -⟩ := hlegal _ _ _ hd (.keyOk pl (by rw [hpl]; rfl))
    exact ⟨rfl, rfl⟩
  case key31 =>
    obtain ⟨pl, hd, hpl, -⟩ := (IsFormatP.encodes (mk := .setKey) (fun _ => ⟨rfl, rfl⟩) rfl).2 c hw
    obtain ⟨rfl, -⟩ := hlegal _ _ _ hd (.keyBad pl (by rw [hpl]; decide))
    exact ⟨rfl, rfl⟩
  case pad40 =>
    obtain ⟨pl, hd, hpl, -⟩ := (IsFormatP.encodes (mk := .pad) (fun _ => ⟨rfl, rfl⟩) rfl).2 c hw
    have hlen : pl.len.toNat = 40 := by rw [hpl]; rfl
    have hfits : pl.len.toNat + padCount pl.len.toNat ≤ s.cfg.bufCap := by rw [hlen]; exact hcap
    obtain ⟨rfl, -⟩ := hlegal _ _ _ hd (.padOk pl hfits)
    rw [hlen, Response.word_success]
    exact ⟨rfl, by simp [Response.success, length_pad, pl.bytes_length, hlen, padCount]⟩
  case encrypt =>
    have hready : s.ctx.ready s.ctx.ptSet s.ctx.ptLen = true :=
      Context.ready_iff.2 ⟨hkey, hiv, hset, by omega, by omega⟩
    obtain ⟨rfl, -⟩ := hlegal .encrypt _ _ ((formatN_encodes (by decide) rfl).2 c hw) (.encOk hready)
    rw [← Context.ptLen_eq, hlen]
    exact ⟨rfl, rfl⟩
  case decrypt =>
    obtain ⟨rfl, ht⟩ := hlegal .decrypt _ _ ((formatN_encodes (by decide) rfl).2 c hw) (.decOk m hready hu)
    rw [hm, ht]
    exact ⟨rfl, rfl, rfl⟩
  case stat =>
    obtain ⟨rfl, -⟩ := hlegal .stat _ _ ((formatN_encodes (by decide) rfl).2 c hw) .stat
    exact ⟨by rw [Response.word_success]; rfl, rfl⟩
  case illegal =>
    obtain ⟨rfl, ht⟩ := hillegal (illegalWord_of_worked _ hw)
    exact ⟨rfl, rfl, Context.keepsAll_iff.2 ht⟩

end Sys2Proof.Machine
end
